-- ==== Sys2Proof/Word.lean ====
section
/-! DEFINITION. The word of the machine: every register, memory cell, PC and FL value is an unsigned 8-bit value (00_scope.md R4, R6). -/

namespace Sys2Proof

/-- A byte: bits 7 (most significant) to 0, unsigned (R6). -/
abbrev Byte := BitVec 8

end Sys2Proof
end

