-- ==== Sys2Proof/Config.lean ====
section
/-! DEFINITION. What is fixed for the machine and is not state: the flag encodings (00_scope.md R5), the sizes (R4) and the fill byte of memory. -/

namespace Sys2Proof

/-- The parameters `FL_E`, `FL_G`, `FL_L`, `FL_RESET` of R5. -/
structure FlagEncoding where
  /-- `FL_E`: the FL value meaning Equal. -/
  equal : Byte
  /-- `FL_G`: the FL value meaning Greater-than. -/
  greater : Byte
  /-- `FL_L`: the FL value meaning Less-than. -/
  less : Byte
  /-- `FL_RESET`: FL after reset, before any comparison. -/
  reset : Byte
  deriving DecidableEq, Repr

/-- The constraints R5 puts on the four parameters: the three outcomes are distinct and nonzero,
`FL_G > FL_E`, `FL_L > FL_E`, `FL_RESET <= FL_E`, and `FL_RESET` is none of the three. -/
abbrev FlagEncoding.Admissible (e : FlagEncoding) : Prop :=
  e.equal ≠ e.greater ∧ e.equal ≠ e.less ∧ e.greater ≠ e.less ∧
  e.equal ≠ 0 ∧ e.greater ≠ 0 ∧ e.less ≠ 0 ∧
  e.equal < e.greater ∧ e.equal < e.less ∧ e.reset ≤ e.equal ∧
  e.reset ≠ e.equal ∧ e.reset ≠ e.greater ∧ e.reset ≠ e.less

/-- The default encodings of R5 and R16, by the spec's decisions D5 and D6: log entry 4. -/
def Config.flags : FlagEncoding := { equal := 0x01, greater := 0x02, less := 0x04, reset := 0x00 }

/-- `MEMSIZE` (R4). -/
def Config.memSize : Nat := 256

/-- What a cell the image did not write holds (R25), by the spec's decision D8: log entry 5. -/
def Config.memFill : Byte := 0x00

/-- The reset value of R0 to R6 (R25), by the spec's decision D7: log entry 3. -/
def Config.regReset : Byte := 0x00

/-- The reset value of R7, the stack pointer (R25). -/
def Config.spReset : Byte := 0xF4

end Sys2Proof
end

