-- ==== Sys2Proof/Machine/State.lean ====
section
/-! DEFINITION. The state of the core, all of it (10_state.md R10 to R25), the faults it can raise, and reset. -/

namespace Sys2Proof.Machine

/-- A checked register index, 0 to 7 (R10). -/
abbrev RegId := Fin 8

/-- The register file: eight bytes, one bank, none hard-wired (R10). -/
structure Regs where
  r0 : Byte
  r1 : Byte
  r2 : Byte
  r3 : Byte
  r4 : Byte
  /-- `IM`, the "interrupt mask": a name only (R11). -/
  r5 : Byte
  /-- `IS`, the "interrupt status": a name only (R11). -/
  r6 : Byte
  /-- `SP`, the stack pointer (R11). -/
  r7 : Byte
  deriving DecidableEq, Repr

/-- `RUN`, the state of the execution loop (R18). -/
inductive RunState where
  | running
  | halted
  | fatalError
  deriving DecidableEq, Repr

/-- The fault causes of 60_exceptions.md R151; `CauseCode.number` in Machine/Ops.lean gives the code. -/
inductive CauseCode where
  | none
  | unknownOpcode
  | memoryRange
  | registerIndex
  | aluInvalidOp
  deriving DecidableEq, Repr

/-- `CAUSE`, the pair (code, info) (R19); `info` is 9 bits wide (R20). -/
structure Cause where
  code : CauseCode
  info : BitVec 9
  deriving DecidableEq, Repr

/-- A fault the core raises, `raise <Fault>(info)` of 00_scope.md R7. It is taken by `State.raise`
(Machine/Ops.lean): a next state, not a stop of the model. -/
inductive Trap where
  /-- The byte at PC is no opcode (R152). -/
  | unknownOpcode (op : Byte)
  /-- A memory access outside 0 to 255 (R153). -/
  | memoryRange (addr : Nat)
  /-- A register operand above 7 (R154). -/
  | registerIndex (i : Byte)
  /-- The ALU was given an opcode outside its set (R155); unreachable. -/
  | aluInvalidOp (op : Byte)
  deriving DecidableEq, Repr

/-- The kind of an output event (R22). -/
inductive OutKind where
  | prn
  | pra
  deriving DecidableEq, Repr

/-- One output event `(kind, v)` (R22). -/
structure OutEvent where
  kind : OutKind
  value : Byte
  deriving DecidableEq, Repr

/-- Memory as (address, byte) pairs: addresses strictly rising, no entry equal to
`Config.memFill`, which is what an unlisted address reads as (`Memory.wf`). -/
abbrev Memory := List Host.Cell

/-- The whole state of the machine (R20 to R23). -/
structure State where
  /-- R0 to R7 (R10). -/
  regs : Regs
  /-- The program counter: during a step, the address of the opcode byte (R13). -/
  pc : Byte
  /-- `FL` (R16). -/
  fl : Byte
  /-- `RUN` (R18). -/
  run : RunState
  /-- `CAUSE` (R19). -/
  cause : Cause
  /-- `MEM` (R21). -/
  mem : Memory
  /-- `OUT`, oldest event first (R22). -/
  out : List OutEvent
  deriving DecidableEq, Repr

/-- Why `step` has no next state. The core's own faults are not here: they are next states. -/
inductive Fault where
  /-- Raised by `step` alone, when RUN is Halted: "no step and no instruction leaves them" (R18).
  Safe: the hardware takes no step either (log entry 2). -/
  | runHalted
  /-- Raised by `step` alone, when RUN is FatalError (R18). Safe: the hardware takes no step either
  (log entry 2). -/
  | runFatalError
  deriving DecidableEq, Repr

/-- Why an instruction has no meaning in this model. -/
inductive Refusal where
  /-- Raised by an arm of `exec` whose instruction is not modelled yet. Safe. No arm raises it:
  every instruction of the table has its meaning. -/
  | notModelled (mnemonic : String)
  deriving DecidableEq, Repr

/-- The register file after reset (R25; R0 to R6: log entry 3). -/
def Regs.reset : Regs :=
  { r0 := Config.regReset, r1 := Config.regReset, r2 := Config.regReset, r3 := Config.regReset,
    r4 := Config.regReset, r5 := Config.regReset, r6 := Config.regReset, r7 := Config.spReset }

/-- CAUSE when no fault has been raised: (0, 0) (R19, R25). -/
def Cause.reset : Cause := { code := .none, info := 0 }

/-- The machine right after reset with nothing in its image (R25): every cell reads
`Config.memFill`. `State.initial` (Machine/HostView.lean) is reset with an image. -/
def State.reset : State :=
  { regs := Regs.reset, pc := 0x00, fl := Config.flags.reset, run := .running,
    cause := Cause.reset, mem := [], out := [] }

end Sys2Proof.Machine
end

