-- ==== Sys2Proof/Machine/Ops.lean ====
section
/-! DEFINITION. The primitives every rule uses (00_scope.md R7): truncation, register and memory access, output, and raising a fault (60_exceptions.md R156). -/

namespace Sys2Proof.Machine

/-- What one instruction or one step answers. -/
abbrev StepOutcome := Host.Outcome State Fault Refusal

/-- `trunc8(n) = n mod 256` for any integer `n` (R7). -/
def trunc8 (n : Int) : Byte := BitVec.ofInt 8 n

/-- `wrapPC(n)`: 0 if `n >= 256`, else `n` (R7, 10_state.md R14). -/
def wrapPC (n : Nat) : Byte := if 256 ≤ n then 0 else BitVec.ofNat 8 n

/-! ## Registers -/

/-- Index 7, the stack pointer (10_state.md R11). -/
def RegId.sp : RegId := 7

/-- `get(index)` of the register file (10_state.md R10). -/
def Regs.get (r : Regs) (i : RegId) : Byte :=
  match i with
  | 0 => r.r0
  | 1 => r.r1
  | 2 => r.r2
  | 3 => r.r3
  | 4 => r.r4
  | 5 => r.r5
  | 6 => r.r6
  | 7 => r.r7

/-- `set(index, byte)` of the register file (10_state.md R10). -/
def Regs.set (r : Regs) (i : RegId) (v : Byte) : Regs :=
  match i with
  | 0 => { r with r0 := v }
  | 1 => { r with r1 := v }
  | 2 => { r with r2 := v }
  | 3 => { r with r3 := v }
  | 4 => { r with r4 := v }
  | 5 => { r with r5 := v }
  | 6 => { r with r6 := v }
  | 7 => { r with r7 := v }

/-- `x[i]` (R7). -/
def State.reg (s : State) (i : RegId) : Byte := s.regs.get i

/-- `x[i] <- v` (R7). -/
def State.setReg (s : State) (i : RegId) (v : Byte) : State := { s with regs := s.regs.set i v }

/-! ## The other registers -/

/-- Part 3 of the step: the only write to PC (41_dispatch_and_loop.md R91). -/
def State.setPc (s : State) (target : Byte) : State := { s with pc := target }

/-- `pc <- wrapPC(PC + n)` for an instruction `n` bytes long that does not branch (10_state.md R14). -/
def State.advance (s : State) (length : Nat) : State := s.setPc (wrapPC (s.pc.toNat + length))

/-- `FL <- v` (43_compare_and_branch.md R121). -/
def State.setFl (s : State) (v : Byte) : State := { s with fl := v }

/-- `RUN <- r` (10_state.md R18). -/
def State.setRun (s : State) (r : RunState) : State := { s with run := r }

/-! ## Memory -/

/-- The byte at an address: its entry, or the fill byte where there is none (10_state.md R25). -/
def Memory.read (m : Memory) (addr : Nat) : Byte :=
  match m with
  | [] => Config.memFill
  | c :: rest => if c.1 = addr then c.2 else Memory.read rest addr

/-- Take every entry of an address out. -/
def Memory.erase (m : Memory) (addr : Nat) : Memory := m.filter fun c => c.1 != addr

/-- Put an entry in before the first entry of a higher address. -/
def Memory.insert (m : Memory) (addr : Nat) (v : Byte) : Memory :=
  match m with
  | [] => [(addr, v)]
  | c :: rest => if addr < c.1 then (addr, v) :: c :: rest else c :: Memory.insert rest addr v

/-- Set the byte at an address, keeping the canonical form: writing the fill byte takes the entry
out. -/
def Memory.write (m : Memory) (addr : Nat) (v : Byte) : Memory :=
  if v = Config.memFill then Memory.erase m addr else Memory.insert (Memory.erase m addr) addr v

/-- The canonical form: addresses strictly rising, all below `MEMSIZE`, no entry equal to the fill
byte. -/
abbrev Memory.wf (m : Memory) : Prop :=
  m.Pairwise (fun c d => c.1 < d.1) ∧ ∀ c ∈ m, c.1 < Config.memSize ∧ c.2 ≠ Config.memFill

/-- `MemRead(addr, 1)` (20_memory.md R31). -/
def State.memRead (s : State) (addr : Nat) : Except Trap Byte :=
  if addr ≤ 255 then .ok (Memory.read s.mem addr) else .error (.memoryRange addr)

/-- `MemWrite(addr, 1, v)` (20_memory.md R32). -/
def State.memWrite (s : State) (addr : Nat) (v : Byte) : Except Trap State :=
  if addr ≤ 255 then .ok { s with mem := Memory.write s.mem addr v } else .error (.memoryRange addr)

/-! ## Output -/

/-- `Emit(kind, v)` (45_output.md R140). -/
def State.emit (s : State) (kind : OutKind) (v : Byte) : State :=
  { s with out := s.out ++ [{ kind := kind, value := v }] }

/-! ## Faults -/

/-- The numeric code of a cause (60_exceptions.md R151); 3 bits (10_state.md R20). -/
def CauseCode.number (c : CauseCode) : BitVec 3 :=
  match c with
  | .none => 0
  | .unknownOpcode => 1
  | .memoryRange => 2
  | .registerIndex => 3
  | .aluInvalidOp => 4

/-- What a fault records in CAUSE: its code and its info (60_exceptions.md R151). -/
def Trap.cause (t : Trap) : Cause :=
  match t with
  | .unknownOpcode op => { code := .unknownOpcode, info := op.zeroExtend 9 }
  | .memoryRange addr => { code := .memoryRange, info := BitVec.ofNat 9 addr }
  | .registerIndex i => { code := .registerIndex, info := i.zeroExtend 9 }
  | .aluInvalidOp op => { code := .aluInvalidOp, info := op.zeroExtend 9 }

/-- Taking a fault: `RUN <- FatalError`, `CAUSE <- (code, info)`, nothing else (60_exceptions.md
R156). There is no return from it (R159). -/
def State.raise (s : State) (t : Trap) : State := { s with run := .fatalError, cause := t.cause }

/-- An instruction's effect as the machine takes it: its own next state, or, if it raised a fault,
the state before it with the fault taken ("abandon the current step with no state change", R7). -/
def State.complete (s : State) (effect : Except Trap State) : StepOutcome :=
  match effect with
  | .ok t => .next t
  | .error t => .next (s.raise t)

end Sys2Proof.Machine
end

