-- ==== Sys2Proof/Machine/Operands.lean ====
section
/-! DEFINITION. The operand forms (44_data_transfer.md R133): register, immediate, ignored byte, and stack-pointer indirect with pre-decrement or post-increment. -/

namespace Sys2Proof.Machine

/-- `CheckReg(i)`: the whole operand byte is the index, and 8 to 255 raise `RegisterIndexFault`
(30_encoding.md R53). -/
def checkReg (i : Byte) : Except Trap RegId :=
  if h : i.toNat < 8 then .ok ⟨i.toNat, h⟩ else .error (.registerIndex i)

/-- The value of an immediate operand: the byte as is (30_encoding.md R54). -/
def immediate (b : Byte) : Byte := b

/-- `x[7] <- trunc8(x[7] - 1)`, the first line of PUSH and CALL (42_stack_and_subroutine.md R110). -/
def State.preDecrement (s : State) : State :=
  s.setReg RegId.sp (trunc8 ((s.reg RegId.sp).toNat - 1))

/-- `x[7] <- trunc8(x[7] + 1)`, after the read of POP and RET (42_stack_and_subroutine.md R110). -/
def State.postIncrement (s : State) : State :=
  s.setReg RegId.sp (trunc8 ((s.reg RegId.sp).toNat + 1))

/-- `MemWrite(x[7], 1, v)`: store at the stack pointer as it now is. -/
def State.writeTop (s : State) (v : Byte) : Except Trap State :=
  s.memWrite (s.reg RegId.sp).toNat v

/-- `MemRead(x[7], 1)`: the byte at the stack pointer as it now is. -/
def State.readTop (s : State) : Except Trap Byte :=
  s.memRead (s.reg RegId.sp).toNat

end Sys2Proof.Machine
end

