-- ==== Sys2Proof/Machine/Alu.lean ====
section
/-! DEFINITION. The ALU and its eleven instructions (40_alu.md R70 to R85). -/

namespace Sys2Proof.Machine

/-- The ALU's closed set of operations: the mathematical result before truncation, by opcode byte
(R70). `A` is the destination register's value, `B` the source register's. AND, OR and XOR compute
from `B` alone (R77 to R79). -/
def aluResult (op A B : Byte) : Option Int :=
  if op = 0xA0#8 then some (A.toNat + B.toNat)
  else if op = 0xA1#8 then some (A.toNat - B.toNat)
  else if op = 0xA2#8 then some (A.toNat * B.toNat)
  else if op = 0x65#8 then some (A.toNat + 1)
  else if op = 0x66#8 then some (A.toNat - 1)
  else if op = 0xA8#8 then some (B &&& B).toNat
  else if op = 0xAA#8 then some (B ||| B).toNat
  else if op = 0xAB#8 then some (B ^^^ B).toNat
  else if op = 0x69#8 then some (255 - A.toNat)
  else if op = 0xAC#8 then some ((A.toNat <<< B.toNat : Nat) : Int)
  else if op = 0xAD#8 then some ((A.toNat >>> B.toNat : Nat) : Int)
  else none

/-- The ALU: the low 8 bits of the result (R71), or `AluInvalidOp` outside the set (R85). -/
def alu (op A B : Byte) : Except Trap Byte :=
  match aluResult op A B with
  | some n => .ok (trunc8 n)
  | none => .error (.aluInvalidOp op)

/-- A three-byte ALU instruction on registers `a` and `b`: both are read before the write (R83). -/
def aluBinary (op a b : Byte) (s : State) : StepOutcome :=
  s.complete do
    let ra ← checkReg a
    let rb ← checkReg b
    let v ← alu op (s.reg ra) (s.reg rb)
    return (s.setReg ra v).advance 3

/-- An ALU instruction on register `a` alone, `length` bytes long. -/
def aluUnary (op a : Byte) (length : Nat) (s : State) : StepOutcome :=
  s.complete do
    let ra ← checkReg a
    let v ← alu op (s.reg ra) 0
    return (s.setReg ra v).advance length

/-- ADD (R72). -/
def execAdd (a b : Byte) (s : State) : StepOutcome := aluBinary 0xA0 a b s

/-- SUB (R73). -/
def execSub (a b : Byte) (s : State) : StepOutcome := aluBinary 0xA1 a b s

/-- MUL (R74). -/
def execMul (a b : Byte) (s : State) : StepOutcome := aluBinary 0xA2 a b s

/-- INC (R75). -/
def execInc (a : Byte) (s : State) : StepOutcome := aluUnary 0x65 a 2 s

/-- DEC (R76). -/
def execDec (a : Byte) (s : State) : StepOutcome := aluUnary 0x66 a 2 s

/-- AND, in effect a copy of `x[b]` (R77). -/
def execAnd (a b : Byte) (s : State) : StepOutcome := aluBinary 0xA8 a b s

/-- OR, in effect a copy of `x[b]` (R78). -/
def execOr (a b : Byte) (s : State) : StepOutcome := aluBinary 0xAA a b s

/-- XOR, in effect a clear (R79). -/
def execXor (a b : Byte) (s : State) : StepOutcome := aluBinary 0xAB a b s

/-- NOT: three bytes long; the second operand byte is neither checked nor read (R80). -/
def execNot (a _b : Byte) (s : State) : StepOutcome := aluUnary 0x69 a 3 s

/-- SHL: the count is the whole of `x[b]` (R81). -/
def execShl (a b : Byte) (s : State) : StepOutcome := aluBinary 0xAC a b s

/-- SHR: logical; the count is the whole of `x[b]` (R82). -/
def execShr (a b : Byte) (s : State) : StepOutcome := aluBinary 0xAD a b s

end Sys2Proof.Machine
end

