-- ==== Sys2Proof/Machine/Flags.lean ====
section
/-! DEFINITION. What CMP stores in FL and what JEQ and JNE test (43_compare_and_branch.md R121, R123, R124), for any flag encoding (00_scope.md R5). -/

namespace Sys2Proof.Machine

/-- The FL value of a comparison: an unsigned if/else-if chain (R121). -/
def compareFlag (e : FlagEncoding) (left right : Byte) : Byte :=
  if left = right then e.equal
  else if left.toNat > right.toNat then e.greater
  else e.less

/-- JEQ's test, `FL = FL_E` (R123). -/
def jeqTaken (e : FlagEncoding) (fl : Byte) : Bool := fl == e.equal

/-- JNE's test, `FL > FL_E`, numerically on the whole byte (R124). -/
def jneTaken (e : FlagEncoding) (fl : Byte) : Bool := decide (fl.toNat > e.equal.toNat)

end Sys2Proof.Machine
end

