-- ==== Sys2Proof/Machine/Branch.lean ====
section
/-! DEFINITION. Comparison and branching: CMP, JMP, JEQ, JNE (43_compare_and_branch.md R120 to R125). -/

namespace Sys2Proof.Machine

/-- CMP: FL is overwritten as a whole (R121). -/
def execCmp (a b : Byte) (s : State) : StepOutcome :=
  s.complete do
    let ra ← checkReg a
    let rb ← checkReg b
    return (s.setFl (compareFlag Config.flags (s.reg ra) (s.reg rb))).advance 3

/-- A jump to `x[a]` if `taken`, else to the next instruction. The operand is checked whether or not
the branch is taken (R123, R124). -/
def jumpIf (taken : Bool) (a : Byte) (s : State) : StepOutcome :=
  s.complete do
    let ra ← checkReg a
    return if taken then s.setPc (s.reg ra) else s.advance 2

/-- JMP (R122). -/
def execJmp (a : Byte) (s : State) : StepOutcome := jumpIf true a s

/-- JEQ (R123). -/
def execJeq (a : Byte) (s : State) : StepOutcome := jumpIf (jeqTaken Config.flags s.fl) a s

/-- JNE (R124). -/
def execJne (a : Byte) (s : State) : StepOutcome := jumpIf (jneTaken Config.flags s.fl) a s

end Sys2Proof.Machine
end

