-- ==== Sys2Proof/Machine/Loop.lean ====
section
/-! DEFINITION. Loop control: NOP and HLT (41_dispatch_and_loop.md R98, R99). -/

namespace Sys2Proof.Machine

/-- NOP (R98). -/
def execNop (s : State) : StepOutcome := .next (s.advance 1)

/-- HLT: RUN becomes Halted, and PC advances all the same (R99). -/
def execHlt (s : State) : StepOutcome := .next ((s.setRun .halted).advance 1)

end Sys2Proof.Machine
end

