-- ==== Sys2Proof/Machine/Output.lean ====
section
/-! DEFINITION. Output: PRN and PRA (45_output.md R140 to R142). -/

namespace Sys2Proof.Machine

/-- Emit `(kind, x[a])`, two bytes long. -/
def emitReg (kind : OutKind) (a : Byte) (s : State) : StepOutcome :=
  s.complete do
    let ra ← checkReg a
    return (s.emit kind (s.reg ra)).advance 2

/-- PRN (R141). -/
def execPrn (a : Byte) (s : State) : StepOutcome := emitReg .prn a s

/-- PRA (R142). -/
def execPra (a : Byte) (s : State) : StepOutcome := emitReg .pra a s

end Sys2Proof.Machine
end

