-- ==== Sys2Proof/Machine/Stack.lean ====
section
/-! DEFINITION. Stack and subroutine linkage: PUSH, POP, CALL, RET (42_stack_and_subroutine.md R110 to R115). The lines of each take effect in the order written (R96), which shows when the operand is R7. -/

namespace Sys2Proof.Machine

/-- PUSH: decrement, then store `x[a]` as it then is (R111). -/
def execPush (a : Byte) (s : State) : StepOutcome :=
  s.complete do
    let ra ← checkReg a
    let s₁ := s.preDecrement
    let s₂ ← s₁.writeTop (s₁.reg ra)
    return s₂.advance 2

/-- POP: write `x[a]`, then increment `x[7]` (R112). -/
def execPop (a : Byte) (s : State) : StepOutcome :=
  s.complete do
    let ra ← checkReg a
    let v ← s.readTop
    return ((s.setReg ra v).postIncrement).advance 2

/-- CALL: decrement, store the address after the CALL, then jump to `x[a]` as it then is (R113). -/
def execCall (a : Byte) (s : State) : StepOutcome :=
  s.complete do
    let ra ← checkReg a
    let s₁ := s.preDecrement
    let s₂ ← s₁.writeTop (trunc8 (s.pc.toNat + 2))
    return s₂.setPc (s₂.reg ra)

/-- RET (R114). -/
def execRet (s : State) : StepOutcome :=
  s.complete do
    let t ← s.readTop
    return s.postIncrement.setPc t

end Sys2Proof.Machine
end

