-- ==== Sys2Proof/Machine/Transfer.lean ====
section
/-! DEFINITION. Data transfer: LDI, LD, ST (44_data_transfer.md R130 to R133). None of them touches memory. -/

namespace Sys2Proof.Machine

/-- `x[a] <- b`, three bytes long; `b` is not a register and is not checked (30_encoding.md R54). -/
def loadByte (a b : Byte) (s : State) : StepOutcome :=
  s.complete do
    let ra ← checkReg a
    return (s.setReg ra (immediate b)).advance 3

/-- LDI (R130). -/
def execLdi (a b : Byte) (s : State) : StepOutcome := loadByte a b s

/-- LD: the operand byte itself, not `x[b]` and not `MEM[x[b]]` (R131). -/
def execLd (a b : Byte) (s : State) : StepOutcome := loadByte a b s

/-- ST: `x[a] <- x[b]` (R132). -/
def execSt (a b : Byte) (s : State) : StepOutcome :=
  s.complete do
    let ra ← checkReg a
    let rb ← checkReg b
    return (s.setReg ra (s.reg rb)).advance 3

end Sys2Proof.Machine
end

