-- ==== Sys2Proof/Syntax.lean ====
section
/-! DEFINITION. The instruction set: one constructor per row of the opcode table (30_encoding.md R55). Operands are the operand bytes as fetched (00_scope.md R8). -/

namespace Sys2Proof

/-- The 26 instructions of R55, in the table's order. `a` is the byte at `PC + 1`, `b` the byte at
`PC + 2`; which of them is a register index is `Instr.regOperands`. -/
inductive Instr where
  /-- No operation (R98). -/
  | nop
  /-- Halt (R99). -/
  | hlt
  /-- Return from subroutine (R114). -/
  | ret
  /-- Call the subroutine at `x[a]` (R113). -/
  | call (a : Byte)
  /-- Jump to `x[a]` (R122). -/
  | jmp (a : Byte)
  /-- Jump to `x[a]` if FL is Equal (R123). -/
  | jeq (a : Byte)
  /-- Jump to `x[a]` if FL is numerically above Equal (R124). -/
  | jne (a : Byte)
  /-- Push `x[a]` (R111). -/
  | push (a : Byte)
  /-- Pop into `x[a]` (R112). -/
  | pop (a : Byte)
  /-- Print `x[a]` as a character (R142). -/
  | pra (a : Byte)
  /-- Print `x[a]` as a number (R141). -/
  | prn (a : Byte)
  /-- Load the immediate `b` into `x[a]` (R130). -/
  | ldi (a b : Byte)
  /-- Load the raw operand byte `b` into `x[a]` (R131). -/
  | ld (a b : Byte)
  /-- Copy `x[b]` to `x[a]` (R132). -/
  | st (a b : Byte)
  /-- Increment `x[a]` (R75). -/
  | inc (a : Byte)
  /-- Decrement `x[a]` (R76). -/
  | dec (a : Byte)
  /-- Add `x[b]` to `x[a]` (R72). -/
  | add (a b : Byte)
  /-- Subtract `x[b]` from `x[a]` (R73). -/
  | sub (a b : Byte)
  /-- Multiply `x[a]` by `x[b]` (R74). -/
  | mul (a b : Byte)
  /-- `x[a] <- x[b] & x[b]` (R77). -/
  | and (a b : Byte)
  /-- `x[a] <- x[b] | x[b]` (R78). -/
  | or (a b : Byte)
  /-- `x[a] <- x[b] ^ x[b]` (R79). -/
  | xor (a b : Byte)
  /-- `x[a] <- 255 - x[a]`; `b` is fetched and ignored (R80). -/
  | not (a b : Byte)
  /-- Shift `x[a]` left by `x[b]` (R81). -/
  | shl (a b : Byte)
  /-- Shift `x[a]` right by `x[b]` (R82). -/
  | shr (a b : Byte)
  /-- Compare `x[a]` with `x[b]` (R121). -/
  | cmp (a b : Byte)
  deriving DecidableEq, Repr

end Sys2Proof
end

