-- ==== Sys2Proof/WellFormed.lean ====
section
/-! DEFINITION. Which instructions are well formed: every operand byte in a register position is 0 to 7 (30_encoding.md R53, R54, R55). -/

namespace Sys2Proof

/-- The operand bytes the table of R55 marks `reg`, in the order R58 checks them: `a`, then `b`.
LDI's and LD's `b` is an immediate and NOT's `b` is ignored (R54), so they are not listed. -/
def Instr.regOperands : Instr → List Byte
  | .nop => []
  | .hlt => []
  | .ret => []
  | .call a => [a]
  | .jmp a => [a]
  | .jeq a => [a]
  | .jne a => [a]
  | .push a => [a]
  | .pop a => [a]
  | .pra a => [a]
  | .prn a => [a]
  | .ldi a _ => [a]
  | .ld a _ => [a]
  | .st a b => [a, b]
  | .inc a => [a]
  | .dec a => [a]
  | .add a b => [a, b]
  | .sub a b => [a, b]
  | .mul a b => [a, b]
  | .and a b => [a, b]
  | .or a b => [a, b]
  | .xor a b => [a, b]
  | .not a _ => [a]
  | .shl a b => [a, b]
  | .shr a b => [a, b]
  | .cmp a b => [a, b]

/-- Every register operand is a legal index, 0 to 7 (R53). An instruction that is not well formed
raises `RegisterIndexFault`. -/
abbrev Instr.WellFormed (i : Instr) : Prop := ∀ r ∈ i.regOperands, r.toNat ≤ 7

end Sys2Proof
end

