-- ==== Sys2Proof/Decode.lean ====
section
/-! DEFINITION. The decoder and the encoder, from the opcode table of 30_encoding.md (R50, R55 to R58). -/

namespace Sys2Proof

/-- An instruction format of R50 with the instruction its operand bytes make. -/
inductive Format where
  /-- One byte: the opcode. -/
  | f0 (i : Instr)
  /-- Two bytes: opcode and operand `a`. -/
  | f1 (mk : Byte → Instr)
  /-- Three bytes: opcode, operand `a`, operand `b`. -/
  | f2 (mk : Byte → Byte → Instr)

/-- One row of the opcode table: the whole opcode byte must match (R61). -/
structure OpcodeRow where
  opcode : Byte
  format : Format

/-- Why a byte sequence holds no instruction. -/
inductive DecodeError where
  /-- There is no opcode byte. -/
  | noOpcode
  /-- The first byte is not in the table (R57). -/
  | unknownOpcode (op : Byte)
  /-- The operand byte at this offset from the opcode (1 or 2) is missing (R52). -/
  | missingOperand (offset : Nat)
  deriving DecidableEq, Repr

/-- The one-byte rows of R55. -/
def tableF0 : List OpcodeRow :=
  [⟨0x00, .f0 .nop⟩, ⟨0x01, .f0 .hlt⟩, ⟨0x11, .f0 .ret⟩]

/-- The two-byte rows of R55. -/
def tableF1 : List OpcodeRow :=
  [⟨0x50, .f1 .call⟩, ⟨0x54, .f1 .jmp⟩, ⟨0x55, .f1 .jeq⟩, ⟨0x56, .f1 .jne⟩,
   ⟨0x45, .f1 .push⟩, ⟨0x46, .f1 .pop⟩, ⟨0x48, .f1 .pra⟩, ⟨0x47, .f1 .prn⟩,
   ⟨0x65, .f1 .inc⟩, ⟨0x66, .f1 .dec⟩]

/-- The three-byte rows of R55; NOT (0x69) has two operand bytes (R56, 90_conflicts.md C2). -/
def tableF2 : List OpcodeRow :=
  [⟨0x82, .f2 .ldi⟩, ⟨0x83, .f2 .ld⟩, ⟨0x84, .f2 .st⟩,
   ⟨0xA0, .f2 .add⟩, ⟨0xA1, .f2 .sub⟩, ⟨0xA2, .f2 .mul⟩,
   ⟨0xA8, .f2 .and⟩, ⟨0xAA, .f2 .or⟩, ⟨0xAB, .f2 .xor⟩, ⟨0x69, .f2 .not⟩,
   ⟨0xAC, .f2 .shl⟩, ⟨0xAD, .f2 .shr⟩, ⟨0xA7, .f2 .cmp⟩]

/-- The opcode table of R55: 26 rows. -/
def opcodeTable : List OpcodeRow := tableF0 ++ tableF1 ++ tableF2

/-- The format of an opcode byte, by looking the whole byte up in the table (R56). -/
def formatOf (op : Byte) : Option Format :=
  (opcodeTable.find? fun row => row.opcode == op).map OpcodeRow.format

/-- Steps 1 to 4 of R58 on the bytes from the opcode upward: the instruction and the bytes after it,
or the first check that fails (unknown opcode, operand `a` missing, operand `b` missing). -/
def decode (bytes : List Byte) : Except DecodeError (Instr × List Byte) :=
  match bytes with
  | [] => .error .noOpcode
  | op :: rest =>
    match formatOf op, rest with
    | none, _ => .error (.unknownOpcode op)
    | some (.f0 i), rest => .ok (i, rest)
    | some (.f1 _), [] => .error (.missingOperand 1)
    | some (.f1 mk), a :: rest => .ok (mk a, rest)
    | some (.f2 _), [] => .error (.missingOperand 1)
    | some (.f2 _), [_] => .error (.missingOperand 2)
    | some (.f2 mk), a :: b :: rest => .ok (mk a b, rest)

/-- The bytes of an instruction, the opcode byte first (R50, R55). -/
def encode (i : Instr) : List Byte :=
  match i with
  | .nop => [0x00]
  | .hlt => [0x01]
  | .ret => [0x11]
  | .call a => [0x50, a]
  | .jmp a => [0x54, a]
  | .jeq a => [0x55, a]
  | .jne a => [0x56, a]
  | .push a => [0x45, a]
  | .pop a => [0x46, a]
  | .pra a => [0x48, a]
  | .prn a => [0x47, a]
  | .ldi a b => [0x82, a, b]
  | .ld a b => [0x83, a, b]
  | .st a b => [0x84, a, b]
  | .inc a => [0x65, a]
  | .dec a => [0x66, a]
  | .add a b => [0xA0, a, b]
  | .sub a b => [0xA1, a, b]
  | .mul a b => [0xA2, a, b]
  | .and a b => [0xA8, a, b]
  | .or a b => [0xAA, a, b]
  | .xor a b => [0xAB, a, b]
  | .not a b => [0x69, a, b]
  | .shl a b => [0xAC, a, b]
  | .shr a b => [0xAD, a, b]
  | .cmp a b => [0xA7, a, b]

/-- The three bytes of a table word: bit 0 is the least significant bit of the first byte, and the
bits above `nbits` are 0. -/
def tableWordBytes (nbits w : Nat) : List Byte :=
  let v := w % 2 ^ nbits
  [BitVec.ofNat 8 v, BitVec.ofNat 8 (v / 256), BitVec.ofNat 8 (v / 65536)]

/-- The instruction the decoder reads from a table word. -/
def decodeTableWord (nbits w : Nat) : Option Instr :=
  match decode (tableWordBytes nbits w) with
  | .ok (i, _) => some i
  | .error _ => none

end Sys2Proof
end

