-- ==== Sys2Proof/Machine/Fetch.lean ====
section
/-! DEFINITION. Fetch and decode: part 1 of the step (30_encoding.md R51, R52, R58; 41_dispatch_and_loop.md R91). -/

namespace Sys2Proof.Machine

/-- Up to `n` bytes from `addr` upward, by `MemRead`, ending before the first address out of range.
Addresses do not wrap (R52). -/
def fetchFrom (s : State) (n addr : Nat) : List Byte :=
  match n with
  | 0 => []
  | n + 1 =>
    match s.memRead addr with
    | .ok b => b :: fetchFrom s n (addr + 1)
    | .error _ => []

/-- The bytes an instruction at PC can have: those at `PC`, `PC + 1`, `PC + 2` that exist. A read
has no effect (20_memory.md R30), so reading a byte the format does not use changes nothing. -/
def fetchBytes (s : State) : List Byte := fetchFrom s 3 s.pc.toNat

/-- The fault a failed decode of the bytes at `pc` raises (R57, R52). -/
def decodeTrap (pc : Byte) (e : DecodeError) : Trap :=
  match e with
  | .noOpcode => .memoryRange pc.toNat
  | .unknownOpcode op => .unknownOpcode op
  | .missingOperand offset => .memoryRange (pc.toNat + offset)

/-- Steps 1 to 4 of R58: the instruction at PC or the fault its fetch raises. Steps 5 and 6, the
register checks, are the first thing each meaning does (log entry 1). -/
def fetchDecode (s : State) : Except Trap Instr :=
  match decode (fetchBytes s) with
  | .ok (i, _) => .ok i
  | .error e => .error (decodeTrap s.pc e)

/-- The bytes stored at `addr` upward. -/
def writeBytes (m : Memory) (addr : Nat) (bytes : List Byte) : Memory :=
  match bytes with
  | [] => m
  | b :: rest => writeBytes (Memory.write m addr b) (addr + 1) rest

/-- `s` made ready to fetch three bytes: running again if its run has ended, and PC at 0 if three bytes
do not fit at PC (log entry 6). A running state with PC at most 253 is left as it is. -/
def State.readyToFetch (s : State) : State :=
  let s := match s.run with
    | .running => s
    | .halted => { s with run := .running, cause := Cause.reset }
    | .fatalError => { s with run := .running, cause := Cause.reset }
  if s.pc.toNat ≤ 253 then s else { s with pc := 0 }

end Sys2Proof.Machine
end

