-- ==== Sys2Proof/Machine/Step.lean ====
section
/-! DEFINITION. The step (41_dispatch_and_loop.md R91) and placing one instruction where it fetches. -/

namespace Sys2Proof.Machine

/-- One step: fetch and decode at PC, then execute; a fault on the way is taken (R91, R156). A step
exists only while RUN is Running (10_state.md R18). -/
def step (s : State) : Host.Outcome State Fault Refusal :=
  match s.run with
  | .halted => .fault .runHalted
  | .fatalError => .fault .runFatalError
  | .running =>
    match fetchDecode s with
    | .error t => .next (s.raise t)
    | .ok i => exec i s

/-- `s` with a table word stored at PC so that the next step runs it (log entry 6). -/
def State.withFetchWord (s : State) (nbits w : Nat) : State :=
  let s := s.readyToFetch
  { s with mem := writeBytes s.mem s.pc.toNat (tableWordBytes nbits w) }

end Sys2Proof.Machine
end

