-- ==== Sys2Proof/Machine/HostView.lean ====
section
/-! DEFINITION. What the host does around a run: the image it loads (70_reset_and_hazards.md R180 to R185), the exit status it may report (60_exceptions.md R158) and the text it renders (45_output.md R143). No step uses these. -/

namespace Sys2Proof.Machine

/-- `IMAGE`: exactly 256 bytes (00_scope.md R5). -/
abbrev Image := Vector Byte 256

/-- The image of a program of `k` bytes: the bytes at 0 to `k - 1`, the fill byte above (R184).
More than 256 bytes make no image (R185). -/
def Image.ofProgram (bytes : List Byte) : Option Image :=
  if bytes.length ≤ 256 then
    some (Vector.ofFn fun i => bytes.getD i.val Config.memFill)
  else none

/-- The initial state of a run: reset with an image in memory (R180, 10_state.md R25). -/
def State.initial (image : Image) : State :=
  { State.reset with mem := writeBytes [] 0 image.toList }

/-- The exit status of a run that has ended; none while it runs (R158). -/
def State.hostStatus (s : State) : Option Nat :=
  match s.run with
  | .running => none
  | .halted => some 0
  | .fatalError => some 1

/-- The decimal digits of a byte as code points, most significant first, no leading zeros (R143). -/
def decimalDigits (v : Byte) : List Nat :=
  let n := v.toNat
  if n < 10 then [48 + n]
  else if n < 100 then [48 + n / 10, 48 + n % 10]
  else [48 + n / 100, 48 + n / 10 % 10, 48 + n % 10]

/-- The code points an event renders to (R143): PRN the decimal number and a newline, PRA the one
character. -/
def render (e : OutEvent) : List Nat :=
  match e.kind with
  | .prn => decimalDigits e.value ++ [10]
  | .pra => [e.value.toNat]

/-- The text of a run: the rendered events in order (R143). -/
def State.text (s : State) : List Nat := s.out.flatMap render

end Sys2Proof.Machine
end

