-- ==== Sys2Proof/Safety.lean ====
section
/-! DEFINITION. The terms the statements use: what a state must satisfy, what a step may change, which fault a step raises, and the shape of an instruction's rule. -/

namespace Sys2Proof.Machine

/-! ## The invariant -/

/-- CAUSE says why the run ended, and says nothing while it has not (10_state.md R19,
60_exceptions.md R151): code 0 unless RUN is FatalError; then the byte at PC is the unknown opcode, or
an operand lies above 255 and `info` is 256, or `info` is an operand byte above 7. -/
def CauseTruthful (s : State) : Prop :=
  match s.run with
  | .running => s.cause = Cause.reset
  | .halted => s.cause = Cause.reset
  | .fatalError =>
    match s.cause.code with
    | .none => False
    | .unknownOpcode =>
      formatOf (Memory.read s.mem s.pc.toNat) = none ∧
      s.cause.info.toNat = (Memory.read s.mem s.pc.toNat).toNat
    | .memoryRange => s.cause.info.toNat = 256 ∧ 254 ≤ s.pc.toNat
    | .registerIndex =>
      8 ≤ s.cause.info.toNat ∧
      (s.cause.info.toNat = (Memory.read s.mem (s.pc.toNat + 1)).toNat ∨
        s.cause.info.toNat = (Memory.read s.mem (s.pc.toNat + 2)).toNat)
    | .aluInvalidOp => False

/-- What every state of a run satisfies: memory in its canonical form, FL one of its four values
(10_state.md R16), CAUSE truthful. -/
structure State.Inv (s : State) : Prop where
  mem : Memory.wf s.mem
  fl : s.fl = Config.flags.reset ∨ s.fl = Config.flags.equal ∨ s.fl = Config.flags.greater ∨
    s.fl = Config.flags.less
  cause : CauseTruthful s

/-- `Reaches s t`: some number of steps takes `s` to `t` (41_dispatch_and_loop.md R93). -/
inductive Reaches (s : State) : State → Prop where
  | refl : Reaches s s
  | tail {t u : State} : Reaches s t → step t = .next u → Reaches s u

/-- A state the machine has not faulted in. -/
def State.Safe (s : State) : Prop := s.run ≠ .fatalError

/-- Every state reachable from `s` is safe. -/
def SafeRun (s : State) : Prop := ∀ t, Reaches s t → t.Safe

/-! ## What an instruction changes -/

/-- Every byte of memory reads as before. -/
def KeepsMemory (s t : State) : Prop :=
  ∀ addr, Memory.read t.mem addr = Memory.read s.mem addr

/-- Every byte of memory reads as before except the one at `addr`, which reads `v`. -/
def StoresByte (addr v : Byte) (s t : State) : Prop :=
  ∀ x, Memory.read t.mem x = if x = addr.toNat then v else Memory.read s.mem x

/-- Every register but the listed ones holds what it held. -/
def KeepsRegsBut (rs : List RegId) (s t : State) : Prop :=
  ∀ r, r ∉ rs → t.reg r = s.reg r

/-- RUN and CAUSE are as before. -/
def KeepsRun (s t : State) : Prop := t.run = s.run ∧ t.cause = s.cause

/-- PC moves past an instruction of `n` bytes, to 0 at or beyond 256 (10_state.md R14). -/
def AdvancesPc (n : Nat) (s t : State) : Prop :=
  t.pc.toNat = if 256 ≤ s.pc.toNat + n then 0 else s.pc.toNat + n

/-- Register `r` becomes `v`, PC moves past `n` bytes, and nothing else changes. -/
def WritesReg (r : RegId) (v : Byte) (n : Nat) (s t : State) : Prop :=
  t.reg r = v ∧ KeepsRegsBut [r] s t ∧ KeepsMemory s t ∧ t.fl = s.fl ∧ KeepsRun s t ∧
  t.out = s.out ∧ AdvancesPc n s t

/-- PC becomes `target`, and nothing else changes. -/
def JumpsTo (target : Byte) (s t : State) : Prop :=
  t.pc = target ∧ KeepsRegsBut [] s t ∧ KeepsMemory s t ∧ t.fl = s.fl ∧ KeepsRun s t ∧
  t.out = s.out

/-- PC moves past `n` bytes, and nothing else changes. -/
def FallsThrough (n : Nat) (s t : State) : Prop :=
  AdvancesPc n s t ∧ KeepsRegsBut [] s t ∧ KeepsMemory s t ∧ t.fl = s.fl ∧ KeepsRun s t ∧
  t.out = s.out

/-- One event is appended to OUT, PC moves past two bytes, and nothing else changes. -/
def EmitsEvent (kind : OutKind) (v : Byte) (s t : State) : Prop :=
  t.out = s.out ++ [{ kind := kind, value := v }] ∧ KeepsRegsBut [] s t ∧ KeepsMemory s t ∧
  t.fl = s.fl ∧ KeepsRun s t ∧ AdvancesPc 2 s t

/-- `s` with a fault taken: RUN and CAUSE, nothing else (60_exceptions.md R156). -/
def faulted (s : State) (code : CauseCode) (info : Nat) : State :=
  { s with run := .fatalError, cause := { code := code, info := BitVec.ofNat 9 info } }

/-! ## Which fault a step raises, read off memory (30_encoding.md R58, R55)

These lists are written out from R50 and R55 and not taken from the decoder's table. -/

/-- The F0 opcodes. -/
def oneByteOpcodes : List Byte := [0x00, 0x01, 0x11]

/-- The F1 opcodes; each has a register operand. -/
def twoByteOpcodes : List Byte := [0x50, 0x54, 0x55, 0x56, 0x45, 0x46, 0x48, 0x47, 0x65, 0x66]

/-- The F2 opcodes whose operand `b` is a register. -/
def regRegOpcodes : List Byte := [0x84, 0xA0, 0xA1, 0xA2, 0xA8, 0xAA, 0xAB, 0xAC, 0xAD, 0xA7]

/-- The F2 opcodes whose operand `b` is not a register: LDI, LD, NOT. -/
def regByteOpcodes : List Byte := [0x82, 0x83, 0x69]

/-- The F2 opcodes. -/
def threeByteOpcodes : List Byte := regRegOpcodes ++ regByteOpcodes

/-- The 230 bytes R57 lists. -/
abbrev UnknownByte (b : Nat) : Prop :=
  (0x02 ≤ b ∧ b ≤ 0x10) ∨ (0x12 ≤ b ∧ b ≤ 0x44) ∨ (0x49 ≤ b ∧ b ≤ 0x4F) ∨
  (0x51 ≤ b ∧ b ≤ 0x53) ∨ (0x57 ≤ b ∧ b ≤ 0x64) ∨ (0x67 ≤ b ∧ b ≤ 0x68) ∨
  (0x6A ≤ b ∧ b ≤ 0x81) ∨ (0x85 ≤ b ∧ b ≤ 0x9F) ∨ (0xA3 ≤ b ∧ b ≤ 0xA6) ∨
  b = 0xA9 ∨ (0xAE ≤ b ∧ b ≤ 0xFF)

/-- The eleven ALU opcodes (40_alu.md R70). -/
def aluOpcodes : List Byte :=
  [0xA0, 0xA1, 0xA2, 0x65, 0x66, 0xA8, 0xAA, 0xAB, 0x69, 0xAC, 0xAD]

/-- The first check of R58 that fails at PC, as (code, info); none if the instruction executes. -/
def decodeFault (s : State) : Option (CauseCode × Nat) :=
  let pc := s.pc.toNat
  let op := Memory.read s.mem pc
  let a := Memory.read s.mem (pc + 1)
  let b := Memory.read s.mem (pc + 2)
  if op ∉ oneByteOpcodes ++ twoByteOpcodes ++ threeByteOpcodes then some (.unknownOpcode, op.toNat)
  else if op ∈ oneByteOpcodes then none
  else if 255 < pc + 1 then some (.memoryRange, pc + 1)
  else if op ∈ threeByteOpcodes ∧ 255 < pc + 2 then some (.memoryRange, pc + 2)
  else if 7 < a.toNat then some (.registerIndex, a.toNat)
  else if op ∈ regRegOpcodes ∧ 7 < b.toNat then some (.registerIndex, b.toNat)
  else none

/-! ## The shape of an instruction's rule

Each says: the encoding; for every state and legal operands the instruction completes with its
effect; an operand byte above 7 in a register position raises RegisterIndexFault, `a` before `b`; and
where operand bytes would lie above address 255 the step raises MemoryRangeFault(256). -/

/-- The step at every running state with opcode `op` at a PC of at least `pc` faults. -/
def StraddleFaults (op : Byte) (pc : Nat) : Prop :=
  ∀ s : State, s.run = .running → Memory.read s.mem s.pc.toNat = op → pc ≤ s.pc.toNat →
    step s = .next (faulted s .memoryRange 256)

/-- A rule of format F0 (no operands, no faults). -/
def RuleF0 (op : Byte) (i : Instr) (effect : State → State → Prop) : Prop :=
  (∀ rest, decode (op :: rest) = .ok (i, rest)) ∧
  (∀ s, ∃ t, exec i s = .next t ∧ effect s t)

/-- A rule of format F1 (operand `a` a register). -/
def RuleReg (op : Byte) (mk : Byte → Instr) (effect : RegId → State → State → Prop) : Prop :=
  (∀ a rest, decode (op :: a :: rest) = .ok (mk a, rest)) ∧
  (∀ s a (ra : RegId), a.toNat = ra.val → ∃ t, exec (mk a) s = .next t ∧ effect ra s t) ∧
  (∀ s a, 7 < a.toNat → exec (mk a) s = .next (faulted s .registerIndex a.toNat)) ∧
  StraddleFaults op 255

/-- A rule of format F2 with operand `a` a register and `b` any byte. -/
def RuleRegByte (op : Byte) (mk : Byte → Byte → Instr)
    (effect : RegId → Byte → State → State → Prop) : Prop :=
  (∀ a b rest, decode (op :: a :: b :: rest) = .ok (mk a b, rest)) ∧
  (∀ s a b (ra : RegId), a.toNat = ra.val → ∃ t, exec (mk a b) s = .next t ∧ effect ra b s t) ∧
  (∀ s a b, 7 < a.toNat → exec (mk a b) s = .next (faulted s .registerIndex a.toNat)) ∧
  StraddleFaults op 254

/-- A rule of format F2 with both operands registers. -/
def RuleRegReg (op : Byte) (mk : Byte → Byte → Instr)
    (effect : RegId → RegId → State → State → Prop) : Prop :=
  (∀ a b rest, decode (op :: a :: b :: rest) = .ok (mk a b, rest)) ∧
  (∀ s a b (ra rb : RegId), a.toNat = ra.val → b.toNat = rb.val →
    ∃ t, exec (mk a b) s = .next t ∧ effect ra rb s t) ∧
  (∀ s a b, 7 < a.toNat → exec (mk a b) s = .next (faulted s .registerIndex a.toNat)) ∧
  (∀ s a b, a.toNat ≤ 7 → 7 < b.toNat →
    exec (mk a b) s = .next (faulted s .registerIndex b.toNat)) ∧
  StraddleFaults op 254

end Sys2Proof.Machine
end

