-- ==== Sys2Proof/Certificates/Slice0/Obligations.lean ====
section
/-! DEFINITION. The statements for the provers. Each docstring names the rules of spec/ it formalises; the shapes RuleF0, RuleReg, RuleRegByte, RuleRegReg and the effects are in Sys2Proof/Safety.lean. -/

open Sys2Proof Sys2Proof.Machine

/-! ## Reset and the image -/

/-- The reset state, which has nothing in its image. Derived: R25 gives the values (R0 to R6, FL, CAUSE,
OUT by its decisions D7, D6, D15, D16), for memory by way of IMAGE. -/
def Obligations.ResetStateValues : Prop :=
  (∀ r : RegId, State.reset.reg r = if r = RegId.sp then 0xF4 else 0x00) ∧
  State.reset.pc = 0x00 ∧ State.reset.fl = 0x00 ∧ State.reset.run = .running ∧
  State.reset.cause.code.number = 0 ∧ State.reset.cause.info = 0 ∧
  (∀ addr, Memory.read State.reset.mem addr = 0x00) ∧ State.reset.out = []

/-- R25: the state after reset, from any IMAGE. -/
def Obligations.InitialStateOfEveryImage : Prop :=
  ∀ image : Image,
    let s := State.initial image
    (∀ r : RegId, s.reg r = if r = RegId.sp then 0xF4 else 0x00) ∧
    s.pc = 0x00 ∧ s.fl = Config.flags.reset ∧ Config.flags.reset = 0x00 ∧ s.run = .running ∧
    s.cause.code.number = 0 ∧ s.cause.info = 0 ∧
    (∀ i : Fin 256, Memory.read s.mem i.val = image[i]) ∧ s.out = []

/-- The loader contract as the core sees it (R184): a program's bytes lie at 0 upward in order, 0x00
above them (the spec's decision D8). Derived: the rule's text form is outside the core. -/
def Obligations.ProgramLoadsFromAddressZero : Prop :=
  ∀ bytes : List Byte, bytes.length ≤ 256 → ∃ image, Image.ofProgram bytes = some image ∧
    ∀ i : Fin 256, Memory.read (State.initial image).mem i.val =
      if h : i.val < bytes.length then bytes[i.val] else 0x00

/-! ## Registers and memory -/

/-- R10: eight registers, no alias between them and none hard-wired. -/
def Obligations.RegisterReadAfterWrite : Prop :=
  ∀ (s : State) (r q : RegId) (v : Byte),
    (s.setReg r v).reg r = v ∧ (q ≠ r → (s.setReg r v).reg q = s.reg q) ∧
    { s.setReg r v with regs := s.regs } = s

/-- R31, R32: `MemRead` and `MemWrite` on every address, and that a write changes exactly the
addressed cell. -/
def Obligations.MemoryReadAfterWrite : Prop :=
  ∀ (s : State) (addr : Nat) (v : Byte),
    (addr ≤ 255 →
      s.memRead addr = .ok (Memory.read s.mem addr) ∧
      ∃ t, s.memWrite addr v = .ok t ∧ { t with mem := s.mem } = s ∧
        ∀ x, Memory.read t.mem x = if x = addr then v else Memory.read s.mem x) ∧
    (255 < addr →
      s.memRead addr = .error (.memoryRange addr) ∧
      s.memWrite addr v = .error (.memoryRange addr))

/-! ## Encoding -/

/-- R55: a word of each family, written out from the table, decodes to its instruction. Byte 0 is the
low byte of the word. -/
def Obligations.WordsDecodeAsTabled : Prop :=
  decodeTableWord 8 0x00 = some .nop ∧ decodeTableWord 8 0x01 = some .hlt ∧
  decodeTableWord 8 0x11 = some .ret ∧ decodeTableWord 16 0x0350 = some (.call 3) ∧
  decodeTableWord 16 0x0745 = some (.push 7) ∧ decodeTableWord 16 0x0256 = some (.jne 2) ∧
  decodeTableWord 16 0x0147 = some (.prn 1) ∧ decodeTableWord 16 0x0665 = some (.inc 6) ∧
  decodeTableWord 24 0x2A0082 = some (.ldi 0 0x2A) ∧
  decodeTableWord 24 0x0201A0 = some (.add 1 2) ∧
  decodeTableWord 24 0xFF0169 = some (.not 1 0xFF) ∧
  decodeTableWord 24 0x0605A7 = some (.cmp 5 6)

/-- The formats of R50 and the table of R55: decoding and encoding agree. The bytes decode to `i` with `rest` after it exactly
when they are the bytes of `i` followed by `rest`, for every instruction and every operand byte. -/
def Obligations.DecodeInvertsEncode : Prop :=
  ∀ (i : Instr) (bytes rest : List Byte),
    decode bytes = .ok (i, rest) ↔ bytes = encode i ++ rest

/-- R57: the unknown opcodes are exactly the bytes of the listed ranges, and a step that fetches
one raises UnknownOpcode with the byte, whatever follows it. -/
def Obligations.UnknownOpcodesAreTheListedRanges : Prop :=
  (∀ (op : Byte) (rest : List Byte),
    decode (op :: rest) = .error (.unknownOpcode op) ↔ UnknownByte op.toNat) ∧
  (∀ s : State, s.run = .running → UnknownByte (Memory.read s.mem s.pc.toNat).toNat →
    step s = .next
      (faulted s .unknownOpcode (Memory.read s.mem s.pc.toNat).toNat))

/-! ## The step -/

/-- The step of R91: a running machine executes the instruction its decoder reads from the bytes at PC. `step` adds
nothing around `exec`: each meaning writes PC itself. -/
def Obligations.StepRunsDecodedInstruction : Prop :=
  ∀ (s : State) (i : Instr) (rest : List Byte), s.run = .running →
    decode (fetchBytes s) = .ok (i, rest) → step s = exec i s

/-- The step of R91 and the fetch order of R51: where memory holds the bytes of `i` at PC, PC + 1, PC + 2, none of them above 255, a
running machine executes `i`. -/
def Obligations.StepRunsBytesAtPc : Prop :=
  ∀ (s : State) (i : Instr), s.run = .running →
    (∀ k (h : k < (encode i).length),
      s.pc.toNat + k ≤ 255 ∧ Memory.read s.mem (s.pc.toNat + k) = (encode i)[k]) →
    step s = exec i s

/-- R58, R157: of a running machine, the step raises the first check that fails in the order opcode,
fetch `a`, fetch `b`, check `a`, check `b`, changing RUN and CAUSE alone; where none fails it executes
the instruction whose bytes are at PC and raises nothing. -/
def Obligations.StepRaisesFirstFaultInDecodeOrder : Prop :=
  ∀ s : State, s.run = .running →
    match decodeFault s with
    | some (code, info) => step s = .next (faulted s code info)
    | none => ∃ i t, i.WellFormed ∧
        (∀ k (h : k < (encode i).length), s.pc.toNat + k ≤ 255 ∧
          Memory.read s.mem (s.pc.toNat + k) = (encode i)[k]) ∧
        step s = exec i s ∧ exec i s = .next t ∧ t.run ≠ .fatalError ∧ t.cause = s.cause

/-- R18: RUN is Running at the start of a run; a step is taken exactly while it is Running; HLT alone
sets Halted and a fault alone sets FatalError; nothing leaves either; and no instruction reads RUN. -/
def Obligations.RunStateChangesOnlyByHltOrFault : Prop :=
  (∀ image : Image, (State.initial image).run = .running) ∧
  (∀ s : State,
    ((∃ t, step s = .next t) ↔ s.run = .running) ∧
    (∀ t, step s = .next t →
      (t.run = .halted ↔ Memory.read s.mem s.pc.toNat = 0x01) ∧
      (t.run = .fatalError ↔ (decodeFault s).isSome)) ∧
    (∀ t, Reaches s t → s.run ≠ .running → t = s)) ∧
  (∀ (i : Instr) (s t : State) (r : RunState), exec i s = .next t →
    ∃ u, exec i (s.setRun r) = .next u ∧ u.setRun t.run = t)

/-- The names under which the model stops once the run has ended. Derived: that the stop is an
Outcome.fault is the model's choice (log entry 2); that there is no step is R18's. -/
def Obligations.EndedRunStopsByName : Prop :=
  ∀ s : State,
    (s.run = .halted → step s = .fault .runHalted) ∧
    (s.run = .fatalError → step s = .fault .runFatalError)

/-- The word the host places is the next instruction to run, in every state. Derived: how a word is
placed in a state whose run has ended or whose PC is above 253 is the model's choice (log entry 6). -/
def Obligations.PlacedWordRunsNext : Prop :=
  ∀ (s : State) (nbits w : Nat) (i : Instr), decodeTableWord nbits w = some i →
    step (s.withFetchWord nbits w) = exec i (s.withFetchWord nbits w)

/-- R156: a step that faults sets RUN and records the fault met first; registers, PC, FL, MEM and OUT
keep the values they had, and no step follows. -/
def Obligations.FaultChangesOnlyRunAndCause : Prop :=
  ∀ s t : State, step s = .next t → t.run = .fatalError →
    (∃ code info, decodeFault s = some (code, info) ∧ code ≠ .none ∧
      t.cause.code = code ∧ t.cause.info.toNat = info) ∧
    t.regs = s.regs ∧ t.pc = s.pc ∧ t.fl = s.fl ∧ t.mem = s.mem ∧ t.out = s.out ∧
    ∀ u, step t ≠ .next u

/-- R14, R15, of an instruction that is not branch-class: when the step completes, PC has moved past
the instruction modulo 256. Derived: the rule marks the equality of "reset to 0" and "modulo 256" as
its own inference. -/
def Obligations.StraightLinePcIsModulo256 : Prop :=
  ∀ (s t : State) (i : Instr) (rest : List Byte), decode (fetchBytes s) = .ok (i, rest) →
    i ≠ .ret → (∀ a, i ≠ .call a ∧ i ≠ .jmp a ∧ i ≠ .jeq a ∧ i ≠ .jne a) →
    step s = .next t → t.run ≠ .fatalError →
    t.pc = s.pc + BitVec.ofNat 8 (encode i).length

/-! ## The ALU instructions -/

/-- R72: `x[a] <- trunc8(x[a] + x[b])`. -/
def Obligations.AddWritesSum : Prop :=
  RuleRegReg 0xA0 .add fun ra rb s t => WritesReg ra (s.reg ra + s.reg rb) 3 s t

/-- R73: `x[a] <- trunc8(x[a] - x[b])`. -/
def Obligations.SubWritesDifference : Prop :=
  RuleRegReg 0xA1 .sub fun ra rb s t => WritesReg ra (s.reg ra - s.reg rb) 3 s t

/-- R74: `x[a] <- trunc8(x[a] * x[b])`. -/
def Obligations.MulWritesLowByteOfProduct : Prop :=
  RuleRegReg 0xA2 .mul fun ra rb s t => WritesReg ra (s.reg ra * s.reg rb) 3 s t

/-- R75: `x[a] <- trunc8(x[a] + 1)`. -/
def Obligations.IncAddsOne : Prop :=
  RuleReg 0x65 .inc fun ra s t => WritesReg ra (s.reg ra + 1) 2 s t

/-- R76: `x[a] <- trunc8(x[a] - 1)`. -/
def Obligations.DecSubtractsOne : Prop :=
  RuleReg 0x66 .dec fun ra s t => WritesReg ra (s.reg ra - 1) 2 s t

/-- R77: `x[a] <- x[b] & x[b]`, a copy of `x[b]`; the old `x[a]` has no influence (decision D2). -/
def Obligations.AndCopiesSource : Prop :=
  RuleRegReg 0xA8 .and fun ra rb s t => WritesReg ra (s.reg rb) 3 s t

/-- R78: `x[a] <- x[b] | x[b]`, a copy of `x[b]` (decision D2). -/
def Obligations.OrCopiesSource : Prop :=
  RuleRegReg 0xAA .or fun ra rb s t => WritesReg ra (s.reg rb) 3 s t

/-- R79: `x[a] <- x[b] ^ x[b]`, which is 0x00 for every `x[b]` (decision D2). -/
def Obligations.XorClearsDestination : Prop :=
  RuleRegReg 0xAB .xor fun ra _ s t => WritesReg ra 0x00 3 s t

/-- R80: `x[a] <- 255 - x[a]`, three bytes long, `b` any byte (decision D17). -/
def Obligations.NotComplementsAndIgnoresSecondByte : Prop :=
  RuleRegByte 0x69 .not fun ra _ s t => WritesReg ra (~~~(s.reg ra)) 3 s t

/-- R81: `x[a] <- trunc8(x[a] << x[b])`, the count the whole of `x[b]`. -/
def Obligations.ShlShiftsByWholeRegister : Prop :=
  RuleRegReg 0xAC .shl fun ra rb s t =>
    WritesReg ra (BitVec.ofNat 8 ((s.reg ra).toNat * 2 ^ (s.reg rb).toNat)) 3 s t

/-- R82: `x[a] <- floor(x[a] / 2^x[b])`, the count the whole of `x[b]`. -/
def Obligations.ShrShiftsByWholeRegister : Prop :=
  RuleRegReg 0xAD .shr fun ra rb s t =>
    WritesReg ra (BitVec.ofNat 8 ((s.reg ra).toNat / 2 ^ (s.reg rb).toNat)) 3 s t

/-- R85, R155: the ALU raises AluInvalidOp exactly outside its closed set, and no instruction and no
step ever records that cause. -/
def Obligations.AluInvalidOpIsUnreachable : Prop :=
  (∀ op A B : Byte, op ∈ aluOpcodes → ∃ v, alu op A B = .ok v) ∧
  (∀ op A B : Byte, op ∉ aluOpcodes → alu op A B = .error (.aluInvalidOp op)) ∧
  (∀ (i : Instr) (s t : State), exec i s = .next t →
    t.cause.code = .aluInvalidOp → s.cause.code = .aluInvalidOp) ∧
  (∀ s t : State, step s = .next t → t.cause.code = .aluInvalidOp → s.cause.code = .aluInvalidOp)

/-! ## Data transfer -/

/-- R130: `x[a] <- b`. -/
def Obligations.LdiLoadsImmediate : Prop :=
  RuleRegByte 0x82 .ldi fun ra b s t => WritesReg ra b 3 s t

/-- R131: `x[a] <- b`, the raw operand byte; memory is not read and `b` is not checked
(decision D4). -/
def Obligations.LdLoadsRawOperandByte : Prop :=
  RuleRegByte 0x83 .ld fun ra b s t => WritesReg ra b 3 s t

/-- R132: `x[a] <- x[b]`; memory is not touched (decision D4). -/
def Obligations.StCopiesRegister : Prop :=
  RuleRegReg 0x84 .st fun ra rb s t => WritesReg ra (s.reg rb) 3 s t

/-! ## Loop control -/

/-- R98. -/
def Obligations.NopOnlyAdvancesPc : Prop :=
  RuleF0 0x00 .nop fun s t => FallsThrough 1 s t

/-- R99: RUN becomes Halted and PC advances (decision D14). -/
def Obligations.HltHaltsAndAdvancesPc : Prop :=
  RuleF0 0x01 .hlt fun s t =>
    t.run = .halted ∧ t.cause = s.cause ∧ AdvancesPc 1 s t ∧ KeepsRegsBut [] s t ∧
    KeepsMemory s t ∧ t.fl = s.fl ∧ t.out = s.out

/-! ## Stack and subroutine -/

/-- R111: SP is decremented modulo 256, then `x[a]` as it then is is stored at the new SP. -/
def Obligations.PushDecrementsThenStores : Prop :=
  RuleReg 0x45 .push fun ra s t =>
    let sp := s.reg RegId.sp - 1
    t.reg RegId.sp = sp ∧ StoresByte sp (if ra = RegId.sp then sp else s.reg ra) s t ∧
    KeepsRegsBut [RegId.sp] s t ∧ t.fl = s.fl ∧ KeepsRun s t ∧ t.out = s.out ∧ AdvancesPc 2 s t

/-- R112: the byte at SP goes to `x[a]`, then `x[7]` is incremented modulo 256. -/
def Obligations.PopReadsThenIncrements : Prop :=
  RuleReg 0x46 .pop fun ra s t =>
    let v := Memory.read s.mem (s.reg RegId.sp).toNat
    t.reg ra = (if ra = RegId.sp then v + 1 else v) ∧
    t.reg RegId.sp = (if ra = RegId.sp then v + 1 else s.reg RegId.sp + 1) ∧
    KeepsRegsBut [ra, RegId.sp] s t ∧ KeepsMemory s t ∧ t.fl = s.fl ∧ KeepsRun s t ∧
    t.out = s.out ∧ AdvancesPc 2 s t

/-- R113: the address after the CALL is stored at the decremented SP, and PC becomes `x[a]` as
it then is (decision D12: the address is one byte). -/
def Obligations.CallStoresReturnAddressAndJumps : Prop :=
  RuleReg 0x50 .call fun ra s t =>
    let sp := s.reg RegId.sp - 1
    t.pc = (if ra = RegId.sp then sp else s.reg ra) ∧ t.reg RegId.sp = sp ∧
    StoresByte sp (s.pc + 2) s t ∧ KeepsRegsBut [RegId.sp] s t ∧ t.fl = s.fl ∧ KeepsRun s t ∧
    t.out = s.out

/-- R114: PC becomes the byte at SP, and SP is incremented modulo 256. -/
def Obligations.RetPopsPc : Prop :=
  RuleF0 0x11 .ret fun s t =>
    t.pc = Memory.read s.mem (s.reg RegId.sp).toNat ∧ t.reg RegId.sp = s.reg RegId.sp + 1 ∧
    KeepsRegsBut [RegId.sp] s t ∧ KeepsMemory s t ∧ t.fl = s.fl ∧ KeepsRun s t ∧ t.out = s.out

/-- PUSH R7, POP R7 and CALL R7 as R115 tabulates them. Derived: the rule is the spec's own reading of
the source (decision D24). -/
def Obligations.StackInstructionsOnStackPointer : Prop :=
  ∀ s : State,
    (∃ t, exec (.push 7) s = .next t ∧ t.reg RegId.sp = s.reg RegId.sp - 1 ∧
      StoresByte (s.reg RegId.sp - 1) (s.reg RegId.sp - 1) s t) ∧
    (∃ t, exec (.pop 7) s = .next t ∧
      t.reg RegId.sp = Memory.read s.mem (s.reg RegId.sp).toNat + 1) ∧
    (∃ t, exec (.call 7) s = .next t ∧ t.reg RegId.sp = s.reg RegId.sp - 1 ∧
      StoresByte (s.reg RegId.sp - 1) (s.pc + 2) s t ∧ t.pc = s.reg RegId.sp - 1)

/-- The property R112 quotes: pushing a register and popping into the same register restores it and SP, for
every register, R7 included. -/
def Obligations.PushThenPopRestores : Prop :=
  ∀ (s : State) (a : Byte) (ra : RegId), a.toNat = ra.val →
    ∃ t u, exec (.push a) s = .next t ∧ exec (.pop a) t = .next u ∧ u.regs = s.regs

/-- The property R114 quotes: a RET that finds the byte its CALL pushed continues after the two-byte CALL, with
SP as before the CALL. Between them anything may have run that left the stack cell and SP as the CALL
left them. -/
def Obligations.CallThenRetResumes : Prop :=
  ∀ (s t u : State) (a : Byte) (ra : RegId), a.toNat = ra.val → exec (.call a) s = .next t →
    u.reg RegId.sp = t.reg RegId.sp →
    Memory.read u.mem (t.reg RegId.sp).toNat = Memory.read t.mem (t.reg RegId.sp).toNat →
    ∃ v, exec .ret u = .next v ∧ v.pc = s.pc + 2 ∧ v.reg RegId.sp = s.reg RegId.sp

/-! ## Comparison and branching -/

/-- R121: FL becomes exactly one of the three outcomes of an unsigned comparison (encodings:
decision D5; direction: decision D19). -/
def Obligations.CmpSetsOneOutcome : Prop :=
  RuleRegReg 0xA7 .cmp fun ra rb s t =>
    ((s.reg ra).toNat = (s.reg rb).toNat → t.fl = Config.flags.equal) ∧
    ((s.reg ra).toNat > (s.reg rb).toNat → t.fl = Config.flags.greater) ∧
    ((s.reg ra).toNat < (s.reg rb).toNat → t.fl = Config.flags.less) ∧
    KeepsRegsBut [] s t ∧ KeepsMemory s t ∧ KeepsRun s t ∧ t.out = s.out ∧ AdvancesPc 3 s t

/-- R122. -/
def Obligations.JmpJumps : Prop :=
  RuleReg 0x54 .jmp fun ra s t => JumpsTo (s.reg ra) s t

/-- R123: the operand is checked whether or not the branch is taken (decision D22). -/
def Obligations.JeqJumpsIfEqual : Prop :=
  RuleReg 0x55 .jeq fun ra s t =>
    if s.fl = Config.flags.equal then JumpsTo (s.reg ra) s t else FallsThrough 2 s t

/-- R124: the numeric test on the whole of FL (decision D3). -/
def Obligations.JneJumpsIfAboveEqual : Prop :=
  RuleReg 0x56 .jne fun ra s t =>
    if s.fl.toNat > Config.flags.equal.toNat then JumpsTo (s.reg ra) s t else FallsThrough 2 s t

/-- R125's table for every encoding that meets the constraints of R5, and that the default encoding
meets them. Derived: the rule is the spec's own inference. -/
def Obligations.BranchTableForAnyEncoding : Prop :=
  Config.flags.Admissible ∧
  ∀ e : FlagEncoding, e.Admissible → ∀ A B : Byte,
    (jeqTaken e (compareFlag e A B) = true ↔ A = B) ∧
    (jneTaken e (compareFlag e A B) = true ↔ A ≠ B) ∧
    jeqTaken e e.reset = false ∧ jneTaken e e.reset = false

/-- R125's property of the source: after CMP, JEQ branches only on equal registers and JNE only on
different ones, whatever JEQ's and JNE's target register. -/
def Obligations.BranchAfterCompare : Prop :=
  ∀ (s : State) (a b c : Byte) (ra rb rc : RegId), a.toNat = ra.val → b.toNat = rb.val →
    c.toNat = rc.val → ∃ t u v,
      exec (.cmp a b) s = .next t ∧ exec (.jeq c) t = .next u ∧ exec (.jne c) t = .next v ∧
      (if s.reg ra = s.reg rb then u.pc = s.reg rc else AdvancesPc 2 t u) ∧
      (if s.reg ra = s.reg rb then AdvancesPc 2 t v else v.pc = s.reg rc)

/-! ## Output -/

/-- R141. -/
def Obligations.PrnEmitsNumber : Prop :=
  RuleReg 0x47 .prn fun ra s t => EmitsEvent .prn (s.reg ra) s t

/-- R142. -/
def Obligations.PraEmitsCharacter : Prop :=
  RuleReg 0x48 .pra fun ra s t => EmitsEvent .pra (s.reg ra) s t

/-- What the text of a run gains from PRN (the decimal digits of the value, no leading zero, and
a newline) and from PRA (the one code point). The digit style is marked general knowledge in the rule
(log entry 16), so the statement is derived. -/
def Obligations.TextOfPrnAndPra : Prop :=
  ∀ (s : State) (a : Byte) (ra : RegId), a.toNat = ra.val →
    (∃ t digits, exec (.prn a) s = .next t ∧ t.text = s.text ++ (digits ++ [10]) ∧
      (∀ d ∈ digits, 48 ≤ d ∧ d ≤ 57) ∧
      digits.foldl (fun n d => 10 * n + (d - 48)) 0 = (s.reg ra).toNat ∧
      digits ≠ [] ∧ (digits.head? = some 48 → digits = [48])) ∧
    (∃ t, exec (.pra a) s = .next t ∧ t.text = s.text ++ [(s.reg ra).toNat])

/-- The exit status of a run that has ended, as R158 tabulates it. Derived: the rule marks all but
UnknownOpcode's as its own choice (decision D15). -/
def Obligations.HostStatusOfEndedRun : Prop :=
  (∀ s t : State, exec .hlt s = .next t → t.hostStatus = some 0) ∧
  (∀ s t : State, step s = .next t → (decodeFault s).isSome → t.hostStatus = some 1) ∧
  (∀ s : State, s.hostStatus = none ↔ s.run = .running)

/-! ## Rules of the whole machine -/

/-- R17: CMP is the only writer of FL and overwrites it whole, with one of its three values whatever
it held; JEQ and JNE are the only readers: what any other instruction does is the same whatever FL
holds. -/
def Obligations.FlagsWrittenOnlyByCmp : Prop :=
  (∀ (i : Instr) (s t : State), exec i s = .next t → t.fl ≠ s.fl → ∃ a b, i = .cmp a b) ∧
  (∀ (s t : State) (a b : Byte), a.toNat ≤ 7 → b.toNat ≤ 7 → exec (.cmp a b) s = .next t →
    t.fl = Config.flags.equal ∨ t.fl = Config.flags.greater ∨ t.fl = Config.flags.less) ∧
  (∀ (i : Instr) (s t : State) (v : Byte), (∀ a, i ≠ .jeq a ∧ i ≠ .jne a) → exec i s = .next t →
    ∃ u, exec i (s.setFl v) = .next u ∧ u.setFl t.fl = t)

/-- No instruction reads or writes a register it does not name, except R7. So R5 and R6 have
no hardware effect. Derived: R11 and R160 state it of R5 and R6, and R12 in a table. -/
def Obligations.UnnamedRegistersAreInert : Prop :=
  ∀ (i : Instr) (s t : State) (r : RegId) (v : Byte), r ≠ RegId.sp →
    (∀ a ∈ i.regOperands, a.toNat ≠ r.val) → exec i s = .next t →
    t.reg r = s.reg r ∧ exec i (s.setReg r v) = .next (t.setReg r v)

/-- A step changes no byte of memory but, by PUSH and CALL, the one at
`trunc8(SP - 1)`. Derived: R40 is the spec's own inference. -/
def Obligations.MemoryWrittenOnlyByPushAndCall : Prop :=
  ∀ (s t : State) (addr : Nat), step s = .next t →
    Memory.read t.mem addr ≠ Memory.read s.mem addr →
    (Memory.read s.mem s.pc.toNat = 0x45 ∨ Memory.read s.mem s.pc.toNat = 0x50) ∧
    addr = (s.reg RegId.sp - 1).toNat

/-- R22: only PRN and PRA append to OUT, nothing is removed from it, and no instruction reads it. -/
def Obligations.OutputOnlyGrows : Prop :=
  ∀ (i : Instr) (s t : State), exec i s = .next t → ∃ events : List OutEvent,
    t.out = s.out ++ events ∧
    (events ≠ [] → ∃ a v, (i = .prn a ∧ events = [{ kind := .prn, value := v }]) ∨
      (i = .pra a ∧ events = [{ kind := .pra, value := v }])) ∧
    ∀ earlier, exec i { s with out := earlier } = .next { t with out := earlier ++ events }

/-! ## The invariant -/

/-- The canonical form of memory, R16's four values and R19, at reset. -/
def Obligations.InvariantHoldsAtReset : Prop := State.reset.Inv

/-- The same at the start of a run from any image. -/
def Obligations.InvariantHoldsForEveryImage : Prop := ∀ image : Image, (State.initial image).Inv

/-- From every state that meets the invariant, a step's next state meets it. -/
def Obligations.StepKeepsInvariant : Prop :=
  ∀ s t : State, s.Inv → step s = .next t → t.Inv

/-- Every state of every run, from any image: memory canonical, FL one of its four values, CAUSE
truthful; and the only fault causes are codes 1 to 3. -/
def Obligations.RunsFromAnyImageKeepInvariant : Prop :=
  ∀ (image : Image) (s : State), Reaches (State.initial image) s →
    s.Inv ∧ (s.run = .fatalError ↔ s.cause.code.number ≠ 0) ∧ s.cause.code.number.toNat ≤ 3

/-- A run that has not faulted stays free of FatalError exactly when no state it reaches while running
has a failing decode check (R93, R58): there is no other way to fault. Derived from those rules. -/
def Obligations.SafeRunsAreThoseWithoutDecodeFault : Prop :=
  ∀ s : State, s.Safe →
    (SafeRun s ↔ ∀ t, Reaches s t → t.run = .running → decodeFault t = none)
end

