-- ==== Sys2Proof/Laws/Decode.lean ====
section
/-! SUPPORT. What the opcode lookup of the decoder answers. -/

namespace Sys2Proof

/-- A format is found only in a row of the table with that opcode byte. -/
theorem formatOf_eq_some {op : Byte} {f : Format} (h : formatOf op = some f) :
    ∃ row ∈ opcodeTable, row.opcode = op ∧ row.format = f := by
  obtain ⟨row, hrow, rfl⟩ := Option.map_eq_some_iff.mp h
  exact ⟨row, List.mem_of_find?_eq_some hrow, by simpa using List.find?_some hrow, rfl⟩

/-- No two rows of the table have the same opcode byte. -/
theorem opcodeTable_nodup : (opcodeTable.map OpcodeRow.opcode).Nodup := by decide

/-- An unknown opcode has no instruction, whatever follows it (30_encoding.md R57). -/
theorem decode_unknown {op : Byte} (h : formatOf op = none) (rest : List Byte) :
    decode (op :: rest) = .error (.unknownOpcode op) := by
  simp only [decode, h]

theorem decode_f0 {op : Byte} {i : Instr} (h : formatOf op = some (.f0 i)) (rest : List Byte) :
    decode (op :: rest) = .ok (i, rest) := by
  simp only [decode, h]

theorem decode_f1 {op : Byte} {mk : Byte → Instr} (h : formatOf op = some (.f1 mk)) (a : Byte)
    (rest : List Byte) : decode (op :: a :: rest) = .ok (mk a, rest) := by
  simp only [decode, h]

theorem decode_f2 {op : Byte} {mk : Byte → Byte → Instr} (h : formatOf op = some (.f2 mk))
    (a b : Byte) (rest : List Byte) : decode (op :: a :: b :: rest) = .ok (mk a b, rest) := by
  simp only [decode, h]

theorem decode_f1_missing {op : Byte} {mk : Byte → Instr} (h : formatOf op = some (.f1 mk)) :
    decode [op] = .error (.missingOperand 1) := by
  simp only [decode, h]

theorem decode_f2_missing_a {op : Byte} {mk : Byte → Byte → Instr}
    (h : formatOf op = some (.f2 mk)) : decode [op] = .error (.missingOperand 1) := by
  simp only [decode, h]

theorem decode_f2_missing_b {op : Byte} {mk : Byte → Byte → Instr}
    (h : formatOf op = some (.f2 mk)) (a : Byte) :
    decode [op, a] = .error (.missingOperand 2) := by
  simp only [decode, h]

end Sys2Proof
end

