-- ==== Sys2Proof/Laws/State.lean ====
section
/-! SUPPORT. One lemma per field per update of the state, each true by rfl. -/

namespace Sys2Proof.Machine

variable (s : State) (r : RegId) (v : Byte) (n : Nat) (m : RunState) (k : OutKind) (t : Trap)

@[simp] theorem State.setReg_regs : (s.setReg r v).regs = s.regs.set r v := rfl
@[simp] theorem State.setReg_pc : (s.setReg r v).pc = s.pc := rfl
@[simp] theorem State.setReg_fl : (s.setReg r v).fl = s.fl := rfl
@[simp] theorem State.setReg_run : (s.setReg r v).run = s.run := rfl
@[simp] theorem State.setReg_cause : (s.setReg r v).cause = s.cause := rfl
@[simp] theorem State.setReg_mem : (s.setReg r v).mem = s.mem := rfl
@[simp] theorem State.setReg_out : (s.setReg r v).out = s.out := rfl

@[simp] theorem State.setPc_regs : (s.setPc v).regs = s.regs := rfl
@[simp] theorem State.setPc_reg : (s.setPc v).reg r = s.reg r := rfl
@[simp] theorem State.setPc_pc : (s.setPc v).pc = v := rfl
@[simp] theorem State.setPc_fl : (s.setPc v).fl = s.fl := rfl
@[simp] theorem State.setPc_run : (s.setPc v).run = s.run := rfl
@[simp] theorem State.setPc_cause : (s.setPc v).cause = s.cause := rfl
@[simp] theorem State.setPc_mem : (s.setPc v).mem = s.mem := rfl
@[simp] theorem State.setPc_out : (s.setPc v).out = s.out := rfl

@[simp] theorem State.advance_regs : (s.advance n).regs = s.regs := rfl
@[simp] theorem State.advance_reg : (s.advance n).reg r = s.reg r := rfl
@[simp] theorem State.advance_pc : (s.advance n).pc = wrapPC (s.pc.toNat + n) := rfl
@[simp] theorem State.advance_fl : (s.advance n).fl = s.fl := rfl
@[simp] theorem State.advance_run : (s.advance n).run = s.run := rfl
@[simp] theorem State.advance_cause : (s.advance n).cause = s.cause := rfl
@[simp] theorem State.advance_mem : (s.advance n).mem = s.mem := rfl
@[simp] theorem State.advance_out : (s.advance n).out = s.out := rfl

@[simp] theorem State.setFl_regs : (s.setFl v).regs = s.regs := rfl
@[simp] theorem State.setFl_reg : (s.setFl v).reg r = s.reg r := rfl
@[simp] theorem State.setFl_pc : (s.setFl v).pc = s.pc := rfl
@[simp] theorem State.setFl_fl : (s.setFl v).fl = v := rfl
@[simp] theorem State.setFl_run : (s.setFl v).run = s.run := rfl
@[simp] theorem State.setFl_cause : (s.setFl v).cause = s.cause := rfl
@[simp] theorem State.setFl_mem : (s.setFl v).mem = s.mem := rfl
@[simp] theorem State.setFl_out : (s.setFl v).out = s.out := rfl

@[simp] theorem State.setRun_regs : (s.setRun m).regs = s.regs := rfl
@[simp] theorem State.setRun_reg : (s.setRun m).reg r = s.reg r := rfl
@[simp] theorem State.setRun_pc : (s.setRun m).pc = s.pc := rfl
@[simp] theorem State.setRun_fl : (s.setRun m).fl = s.fl := rfl
@[simp] theorem State.setRun_run : (s.setRun m).run = m := rfl
@[simp] theorem State.setRun_cause : (s.setRun m).cause = s.cause := rfl
@[simp] theorem State.setRun_mem : (s.setRun m).mem = s.mem := rfl
@[simp] theorem State.setRun_out : (s.setRun m).out = s.out := rfl

@[simp] theorem State.emit_regs : (s.emit k v).regs = s.regs := rfl
@[simp] theorem State.emit_reg : (s.emit k v).reg r = s.reg r := rfl
@[simp] theorem State.emit_pc : (s.emit k v).pc = s.pc := rfl
@[simp] theorem State.emit_fl : (s.emit k v).fl = s.fl := rfl
@[simp] theorem State.emit_run : (s.emit k v).run = s.run := rfl
@[simp] theorem State.emit_cause : (s.emit k v).cause = s.cause := rfl
@[simp] theorem State.emit_mem : (s.emit k v).mem = s.mem := rfl
@[simp] theorem State.emit_out :
    (s.emit k v).out = s.out ++ [{ kind := k, value := v }] := rfl

@[simp] theorem State.raise_regs : (s.raise t).regs = s.regs := rfl
@[simp] theorem State.raise_reg : (s.raise t).reg r = s.reg r := rfl
@[simp] theorem State.raise_pc : (s.raise t).pc = s.pc := rfl
@[simp] theorem State.raise_fl : (s.raise t).fl = s.fl := rfl
@[simp] theorem State.raise_run : (s.raise t).run = .fatalError := rfl
@[simp] theorem State.raise_cause : (s.raise t).cause = t.cause := rfl
@[simp] theorem State.raise_mem : (s.raise t).mem = s.mem := rfl
@[simp] theorem State.raise_out : (s.raise t).out = s.out := rfl

@[simp] theorem State.preDecrement_pc : s.preDecrement.pc = s.pc := rfl
@[simp] theorem State.preDecrement_fl : s.preDecrement.fl = s.fl := rfl
@[simp] theorem State.preDecrement_run : s.preDecrement.run = s.run := rfl
@[simp] theorem State.preDecrement_cause : s.preDecrement.cause = s.cause := rfl
@[simp] theorem State.preDecrement_mem : s.preDecrement.mem = s.mem := rfl
@[simp] theorem State.preDecrement_out : s.preDecrement.out = s.out := rfl

@[simp] theorem State.postIncrement_pc : s.postIncrement.pc = s.pc := rfl
@[simp] theorem State.postIncrement_fl : s.postIncrement.fl = s.fl := rfl
@[simp] theorem State.postIncrement_run : s.postIncrement.run = s.run := rfl
@[simp] theorem State.postIncrement_cause : s.postIncrement.cause = s.cause := rfl
@[simp] theorem State.postIncrement_mem : s.postIncrement.mem = s.mem := rfl
@[simp] theorem State.postIncrement_out : s.postIncrement.out = s.out := rfl

end Sys2Proof.Machine
end

