-- ==== Sys2Proof/Laws/Ops.lean ====
section
/-! SUPPORT. What each shared operation does, said once: truncation, registers, memory and its canonical form, checked operands, completing an effect. -/

namespace Sys2Proof.Machine

/-! ## Truncation and PC -/

theorem trunc8_add (a b : Byte) : trunc8 (a.toNat + b.toNat) = a + b := by
  apply BitVec.eq_of_toNat_eq
  simp only [trunc8, BitVec.toNat_ofInt, BitVec.toNat_add]
  omega

theorem trunc8_sub (a b : Byte) : trunc8 (a.toNat - b.toNat) = a - b := by
  apply BitVec.eq_of_toNat_eq
  have := a.isLt
  have := b.isLt
  simp only [trunc8, BitVec.toNat_ofInt, BitVec.toNat_sub]
  omega

theorem trunc8_natCast (n : Nat) : trunc8 n = BitVec.ofNat 8 n := by
  apply BitVec.eq_of_toNat_eq
  simp only [trunc8, BitVec.toNat_ofInt, BitVec.toNat_ofNat]
  omega

theorem trunc8_add_one (a : Byte) : trunc8 (a.toNat + 1) = a + 1 := trunc8_add a 1

theorem trunc8_sub_one (a : Byte) : trunc8 (a.toNat - 1) = a - 1 := trunc8_sub a 1

theorem wrapPC_toNat (n : Nat) : (wrapPC n).toNat = if 256 ≤ n then 0 else n := by
  unfold wrapPC
  split
  · rfl
  · simp only [BitVec.toNat_ofNat]
    omega

/-- Where the last byte of the instruction is in memory, "reset to 0" and "modulo 256" agree
(10_state.md R14). -/
theorem wrapPC_eq_add (pc : Byte) (n : Nat) (h : pc.toNat + n ≤ 256) :
    wrapPC (pc.toNat + n) = pc + BitVec.ofNat 8 n := by
  apply BitVec.eq_of_toNat_eq
  rw [wrapPC_toNat]
  simp only [BitVec.toNat_add, BitVec.toNat_ofNat]
  split <;> omega

/-! ## Registers -/

@[simp] theorem Regs.get_set (r : Regs) (i j : RegId) (v : Byte) :
    (r.set i v).get j = if j = i then v else r.get j := by
  fin_cases i <;> fin_cases j <;> rfl

@[simp] theorem State.reg_setReg (s : State) (i j : RegId) (v : Byte) :
    (s.setReg i v).reg j = if j = i then v else s.reg j := Regs.get_set s.regs i j v

theorem Regs.ext_get {r q : Regs} (h : ∀ i, r.get i = q.get i) : r = q := by
  cases r
  cases q
  have h0 := h 0
  have h1 := h 1
  have h2 := h 2
  have h3 := h 3
  have h4 := h 4
  have h5 := h 5
  have h6 := h 6
  have h7 := h 7
  simp only [Regs.get] at h0 h1 h2 h3 h4 h5 h6 h7
  simp only [h0, h1, h2, h3, h4, h5, h6, h7]

theorem Regs.set_comm (r : Regs) {i j : RegId} (h : i ≠ j) (v w : Byte) :
    (r.set i v).set j w = (r.set j w).set i v := by
  apply Regs.ext_get
  intro k
  simp only [Regs.get_set]
  split_ifs with h1 h2
  · exact absurd (h2.symm.trans h1) h
  all_goals rfl

theorem State.reg_preDecrement (s : State) (j : RegId) :
    s.preDecrement.reg j = if j = RegId.sp then s.reg RegId.sp - 1 else s.reg j := by
  simp only [State.preDecrement, State.reg_setReg, trunc8_sub_one]

theorem State.reg_postIncrement (s : State) (j : RegId) :
    s.postIncrement.reg j = if j = RegId.sp then s.reg RegId.sp + 1 else s.reg j := by
  simp only [State.postIncrement, State.reg_setReg, trunc8_add_one]

/-! ## Memory -/

theorem Memory.read_erase (m : Memory) (addr x : Nat) :
    Memory.read (Memory.erase m addr) x
      = if x = addr then Config.memFill else Memory.read m x := by
  induction m with
  | nil => simp [Memory.erase, Memory.read]
  | cons c rest ih =>
    unfold Memory.erase at ih ⊢
    by_cases hc : c.1 = addr
    · rw [List.filter_cons_of_neg (by simp [hc]), ih]
      by_cases hx : x = addr
      · simp [hx]
      · have : c.1 ≠ x := fun h => hx (h.symm.trans hc)
        simp [Memory.read, hx, this]
    · rw [List.filter_cons_of_pos (by simp [hc])]
      by_cases hx : c.1 = x
      · have : x ≠ addr := fun h => hc (hx.trans h)
        simp [Memory.read, hx, this]
      · simp [Memory.read, hx, ih]

theorem Memory.read_insert (m : Memory) (addr x : Nat) (v : Byte)
    (h : ∀ c ∈ m, c.1 ≠ addr) :
    Memory.read (Memory.insert m addr v) x = if x = addr then v else Memory.read m x := by
  induction m with
  | nil =>
    simp only [Memory.insert, Memory.read]
    split_ifs with h1 h2 h2
    · rfl
    · exact absurd h1.symm h2
    · exact absurd h2.symm h1
    · rfl
  | cons c rest ih =>
    have ih := ih fun d hd => h d (List.mem_cons_of_mem c hd)
    have hc : c.1 ≠ addr := h c List.mem_cons_self
    by_cases hlt : addr < c.1
    · rw [Memory.insert, if_pos hlt, Memory.read]
      by_cases hx : x = addr
      · simp [hx]
      · rw [if_neg (fun e => hx e.symm), if_neg hx]
    · rw [Memory.insert, if_neg hlt, Memory.read, ih]
      by_cases hx : c.1 = x
      · have : x ≠ addr := fun e => hc (hx.trans e)
        simp [Memory.read, hx, this]
      · simp [Memory.read, hx]

theorem Memory.not_mem_erase (m : Memory) (addr : Nat) : ∀ c ∈ Memory.erase m addr, c.1 ≠ addr := by
  intro c hc
  simpa using (List.mem_filter.mp hc).2

/-- A read after a write to the same address gives the byte written; every other address reads as
before. This holds of every list, canonical or not. -/
theorem Memory.read_write (m : Memory) (addr x : Nat) (v : Byte) :
    Memory.read (Memory.write m addr v) x = if x = addr then v else Memory.read m x := by
  unfold Memory.write
  split
  · next h => rw [Memory.read_erase, h]
  · rw [Memory.read_insert _ _ _ _ (Memory.not_mem_erase m addr), Memory.read_erase]
    split <;> rfl

theorem Memory.wf_nil : Memory.wf [] := by simp [Memory.wf]

theorem Memory.wf_erase {m : Memory} (h : Memory.wf m) (addr : Nat) :
    Memory.wf (Memory.erase m addr) :=
  ⟨h.1.sublist List.filter_sublist, fun c hc => h.2 c (List.mem_filter.mp hc).1⟩

theorem Memory.mem_insert {m : Memory} {addr : Nat} {v : Byte} {c : Host.Cell} :
    c ∈ Memory.insert m addr v → c = (addr, v) ∨ c ∈ m := by
  induction m with
  | nil => simp [Memory.insert]
  | cons d rest ih =>
    unfold Memory.insert
    split
    · simp
    · intro h
      rcases List.mem_cons.mp h with rfl | h
      · exact .inr List.mem_cons_self
      · exact (ih h).imp_right (List.mem_cons_of_mem d)

theorem Memory.wf_insert {m : Memory} (h : Memory.wf m) {addr : Nat} {v : Byte}
    (hne : ∀ c ∈ m, c.1 ≠ addr) (ha : addr < Config.memSize) (hv : v ≠ Config.memFill) :
    Memory.wf (Memory.insert m addr v) := by
  refine ⟨?_, fun c hc => ?_⟩
  · induction m with
    | nil => simp [Memory.insert]
    | cons d rest ih =>
      obtain ⟨hd, hrest⟩ := List.pairwise_cons.mp h.1
      have ih := ih ⟨hrest, fun c hc => h.2 c (List.mem_cons_of_mem d hc)⟩
        fun c hc => hne c (List.mem_cons_of_mem d hc)
      have hdne : d.1 ≠ addr := hne d List.mem_cons_self
      unfold Memory.insert
      split
      · next hlt =>
        refine List.pairwise_cons.mpr ⟨fun c hc => ?_, h.1⟩
        rcases List.mem_cons.mp hc with rfl | hc
        · exact hlt
        · exact hlt.trans (hd c hc)
      · refine List.pairwise_cons.mpr ⟨fun c hc => ?_, ih⟩
        rcases Memory.mem_insert hc with rfl | hc
        · show d.1 < addr
          omega
        · exact hd c hc
  · rcases Memory.mem_insert hc with rfl | hc
    · exact ⟨ha, hv⟩
    · exact h.2 c hc

/-- Every memory operation keeps the canonical form. -/
theorem Memory.wf_write {m : Memory} (h : Memory.wf m) {addr : Nat} (v : Byte)
    (ha : addr < Config.memSize) : Memory.wf (Memory.write m addr v) := by
  unfold Memory.write
  split
  · exact Memory.wf_erase h addr
  · next hv => exact Memory.wf_insert (Memory.wf_erase h addr) (Memory.not_mem_erase m addr) ha hv

theorem wf_writeBytes {m : Memory} (h : Memory.wf m) (addr : Nat) (bytes : List Byte)
    (ha : addr + bytes.length ≤ Config.memSize) : Memory.wf (writeBytes m addr bytes) := by
  induction bytes generalizing m addr with
  | nil => exact h
  | cons b rest ih =>
    simp only [List.length_cons] at ha
    exact ih (Memory.wf_write h b (by omega)) (addr + 1) (by omega)

/-! ## Memory access -/

@[simp] theorem State.memRead_byte (s : State) (addr : Byte) :
    s.memRead addr.toNat = .ok (Memory.read s.mem addr.toNat) := by
  have := addr.isLt
  simp only [State.memRead]
  exact if_pos (by omega)

@[simp] theorem State.memWrite_byte (s : State) (addr v : Byte) :
    s.memWrite addr.toNat v = .ok { s with mem := Memory.write s.mem addr.toNat v } := by
  have := addr.isLt
  simp only [State.memWrite]
  exact if_pos (by omega)

/-- The stack read cannot fault (42_stack_and_subroutine.md R112, R114). -/
@[simp] theorem State.readTop_eq (s : State) :
    s.readTop = .ok (Memory.read s.mem (s.reg RegId.sp).toNat) :=
  State.memRead_byte s (s.reg RegId.sp)

/-- The stack write cannot fault (20_memory.md R32). -/
@[simp] theorem State.writeTop_eq (s : State) (v : Byte) :
    s.writeTop v = .ok { s with mem := Memory.write s.mem (s.reg RegId.sp).toNat v } :=
  State.memWrite_byte s (s.reg RegId.sp) v

/-! ## Checked operands and completion -/

theorem checkReg_of_eq {a : Byte} {r : RegId} (h : a.toNat = r.val) : checkReg a = .ok r := by
  have := r.isLt
  unfold checkReg
  rw [dif_pos (by omega)]
  exact congrArg Except.ok (Fin.ext h)

theorem checkReg_of_lt {a : Byte} (h : 7 < a.toNat) : checkReg a = .error (.registerIndex a) := by
  unfold checkReg
  rw [dif_neg (by omega)]

/-- A checked operand is either a register or the fault; there is no third case. -/
theorem checkReg_cases (a : Byte) :
    (∃ r : RegId, a.toNat = r.val ∧ checkReg a = .ok r) ∨
    (7 < a.toNat ∧ checkReg a = .error (.registerIndex a)) := by
  by_cases h : 7 < a.toNat
  · exact .inr ⟨h, checkReg_of_lt h⟩
  · exact .inl ⟨⟨a.toNat, by omega⟩, rfl, checkReg_of_eq rfl⟩

@[simp] theorem State.complete_ok (s t : State) : s.complete (.ok t) = .next t := rfl

@[simp] theorem State.complete_error (s : State) (e : Trap) :
    s.complete (.error e) = .next (s.raise e) := rfl

@[simp] theorem ok_bind {α β : Type} (a : α) (f : α → Except Trap β) :
    (Except.ok a >>= f) = f a := rfl

@[simp] theorem error_bind {α β : Type} (e : Trap) (f : α → Except Trap β) :
    (Except.error e >>= f) = Except.error e := rfl

@[simp] theorem pure_eq_ok {α : Type} (a : α) : (pure a : Except Trap α) = .ok a := rfl

/-- Completing an effect always answers a next state: the effect's, or the fault taken. -/
theorem State.complete_cases (s : State) (effect : Except Trap State) :
    (∃ t, effect = .ok t ∧ s.complete effect = .next t) ∨
    (∃ e, effect = .error e ∧ s.complete effect = .next (s.raise e)) := by
  cases effect with
  | ok t => exact .inl ⟨t, rfl, rfl⟩
  | error e => exact .inr ⟨e, rfl, rfl⟩

end Sys2Proof.Machine
end

