-- ==== Sys2Proof/Laws/Exec.lean ====
section
/-! SUPPORT. What each shared meaning does on legal operands and what it raises on others, and that executing always answers a next state. -/

namespace Sys2Proof.Machine

variable {s : State} {a b v : Byte} {ra rb : RegId}

/-! ## The ALU's operations as byte arithmetic -/

theorem alu_add (A B : Byte) : alu 0xA0 A B = .ok (A + B) := congrArg Except.ok (trunc8_add A B)

theorem alu_sub (A B : Byte) : alu 0xA1 A B = .ok (A - B) := congrArg Except.ok (trunc8_sub A B)

theorem alu_mul (A B : Byte) : alu 0xA2 A B = .ok (A * B) := by
  show Except.ok (trunc8 ((A.toNat : Int) * B.toNat)) = _
  rw [← Int.natCast_mul, trunc8_natCast]
  exact congrArg Except.ok (BitVec.eq_of_toNat_eq (by simp only [BitVec.toNat_ofNat, BitVec.toNat_mul]))

theorem alu_inc (A B : Byte) : alu 0x65 A B = .ok (A + 1) := congrArg Except.ok (trunc8_add_one A)

theorem alu_dec (A B : Byte) : alu 0x66 A B = .ok (A - 1) := congrArg Except.ok (trunc8_sub_one A)

theorem trunc8_toNat (A : Byte) : trunc8 A.toNat = A := by
  rw [trunc8_natCast]
  exact BitVec.ofNat_toNat 8 A |>.trans (BitVec.setWidth_eq A)

theorem alu_and (A B : Byte) : alu 0xA8 A B = .ok (B &&& B) := congrArg Except.ok (trunc8_toNat _)

theorem alu_or (A B : Byte) : alu 0xAA A B = .ok (B ||| B) := congrArg Except.ok (trunc8_toNat _)

theorem alu_xor (A B : Byte) : alu 0xAB A B = .ok (B ^^^ B) := congrArg Except.ok (trunc8_toNat _)

theorem alu_not (A B : Byte) : alu 0x69 A B = .ok (255 - A) := congrArg Except.ok (trunc8_sub 255 A)

theorem alu_shl (A B : Byte) : alu 0xAC A B = .ok (A <<< B.toNat) := by
  show Except.ok (trunc8 ((A.toNat <<< B.toNat : Nat) : Int)) = _
  rw [trunc8_natCast]
  exact congrArg Except.ok
    (BitVec.eq_of_toNat_eq (by simp only [BitVec.toNat_ofNat, BitVec.toNat_shiftLeft]))

theorem alu_shr (A B : Byte) : alu 0xAD A B = .ok (A >>> B.toNat) := by
  show Except.ok (trunc8 ((A.toNat >>> B.toNat : Nat) : Int)) = _
  rw [trunc8_natCast]
  refine congrArg Except.ok (BitVec.eq_of_toNat_eq ?_)
  simp only [BitVec.toNat_ofNat, BitVec.toNat_ushiftRight]
  exact Nat.mod_eq_of_lt ((Nat.shiftRight_le _ _).trans_lt A.isLt)

/-! ## Shared meanings on legal operands -/

theorem aluBinary_ok {op : Byte} (ha : a.toNat = ra.val) (hb : b.toNat = rb.val)
    (hv : alu op (s.reg ra) (s.reg rb) = .ok v) :
    aluBinary op a b s = .next ((s.setReg ra v).advance 3) := by
  simp only [aluBinary, checkReg_of_eq ha, checkReg_of_eq hb, ok_bind, hv, pure_eq_ok,
    State.complete_ok]

theorem aluUnary_ok {op : Byte} {n : Nat} (ha : a.toNat = ra.val)
    (hv : alu op (s.reg ra) 0 = .ok v) :
    aluUnary op a n s = .next ((s.setReg ra v).advance n) := by
  simp only [aluUnary, checkReg_of_eq ha, ok_bind, hv, pure_eq_ok, State.complete_ok]

theorem loadByte_ok (ha : a.toNat = ra.val) :
    loadByte a b s = .next ((s.setReg ra b).advance 3) := by
  simp only [loadByte, checkReg_of_eq ha, ok_bind, pure_eq_ok, State.complete_ok, immediate]

theorem execSt_ok (ha : a.toNat = ra.val) (hb : b.toNat = rb.val) :
    execSt a b s = .next ((s.setReg ra (s.reg rb)).advance 3) := by
  simp only [execSt, checkReg_of_eq ha, checkReg_of_eq hb, ok_bind, pure_eq_ok, State.complete_ok]

theorem execCmp_ok (ha : a.toNat = ra.val) (hb : b.toNat = rb.val) :
    execCmp a b s
      = .next ((s.setFl (compareFlag Config.flags (s.reg ra) (s.reg rb))).advance 3) := by
  simp only [execCmp, checkReg_of_eq ha, checkReg_of_eq hb, ok_bind, pure_eq_ok, State.complete_ok]

theorem jumpIf_ok {taken : Bool} (ha : a.toNat = ra.val) :
    jumpIf taken a s = .next (if taken then s.setPc (s.reg ra) else s.advance 2) := by
  simp only [jumpIf, checkReg_of_eq ha, ok_bind, pure_eq_ok, State.complete_ok]

theorem emitReg_ok {kind : OutKind} (ha : a.toNat = ra.val) :
    emitReg kind a s = .next ((s.emit kind (s.reg ra)).advance 2) := by
  simp only [emitReg, checkReg_of_eq ha, ok_bind, pure_eq_ok, State.complete_ok]

theorem execPush_ok (ha : a.toNat = ra.val) :
    execPush a s = .next (State.advance
      { s.preDecrement with
        mem := Memory.write s.mem (s.preDecrement.reg RegId.sp).toNat (s.preDecrement.reg ra) } 2) := by
  simp only [execPush, checkReg_of_eq ha, ok_bind, pure_eq_ok, State.writeTop_eq, State.complete_ok,
    State.preDecrement_mem]

theorem execPop_ok (ha : a.toNat = ra.val) :
    execPop a s = .next
      (((s.setReg ra (Memory.read s.mem (s.reg RegId.sp).toNat)).postIncrement).advance 2) := by
  simp only [execPop, checkReg_of_eq ha, ok_bind, pure_eq_ok, State.readTop_eq, State.complete_ok]

theorem execCall_ok (ha : a.toNat = ra.val) :
    execCall a s = .next (State.setPc
      { s.preDecrement with
        mem := Memory.write s.mem (s.preDecrement.reg RegId.sp).toNat (trunc8 (s.pc.toNat + 2)) }
      (s.preDecrement.reg ra)) := by
  simp only [execCall, checkReg_of_eq ha, ok_bind, pure_eq_ok, State.writeTop_eq, State.complete_ok,
    State.preDecrement_mem]
  rfl

theorem execRet_eq :
    execRet s = .next (s.postIncrement.setPc (Memory.read s.mem (s.reg RegId.sp).toNat)) := by
  simp only [execRet, ok_bind, pure_eq_ok, State.readTop_eq, State.complete_ok]

/-! ## Executing always answers a next state -/

theorem complete_next (s : State) (e : Except Trap State) : ∃ t, s.complete e = .next t := by
  rcases s.complete_cases e with ⟨t, -, h⟩ | ⟨e, -, h⟩
  · exact ⟨t, h⟩
  · exact ⟨_, h⟩

/-- Executing answers a next state for every instruction, operands and state. -/
theorem exec_next (i : Instr) (s : State) : ∃ t, exec i s = .next t := by
  cases i <;> first | exact complete_next _ _ | exact ⟨_, rfl⟩

theorem compareFlag_cases (e : FlagEncoding) (x y : Byte) :
    compareFlag e x y = e.equal ∨ compareFlag e x y = e.greater ∨ compareFlag e x y = e.less := by
  unfold compareFlag
  split_ifs <;> simp

/-- What executing can do to CAUSE, RUN, FL and memory, said once: it raises RegisterIndexFault of one
of its register operands, or it is well formed and CAUSE is kept, RUN is kept but by HLT, FL is kept but
by CMP, and memory is kept but by PUSH and CALL, which write one byte at the decremented SP. -/
theorem exec_cases {i : Instr} {s t : State} (h : exec i s = .next t) :
    (∃ a ∈ i.regOperands, 7 < a.toNat ∧ t = s.raise (.registerIndex a)) ∨
    (i.WellFormed ∧ t.cause = s.cause ∧ (t.run = s.run ∨ (i = .hlt ∧ t.run = .halted)) ∧
      (t.fl = s.fl ∨ ((∃ a b, i = .cmp a b) ∧
        (t.fl = Config.flags.equal ∨ t.fl = Config.flags.greater ∨ t.fl = Config.flags.less))) ∧
      (t.mem = s.mem ∨ ((∃ a, i = .push a ∨ i = .call a) ∧
        ∃ v, t.mem = Memory.write s.mem (s.reg RegId.sp - 1).toNat v))) := by
  have wf1 {j : Instr} {a : Byte} {r : RegId} (hj : j.regOperands = [a]) (hr : a.toNat = r.val) :
      j.WellFormed := by
    have := r.isLt
    simp only [Instr.WellFormed, hj, List.mem_singleton, forall_eq]
    omega
  have wf2 {j : Instr} {a b : Byte} {r q : RegId} (hj : j.regOperands = [a, b])
      (hr : a.toNat = r.val) (hq : b.toNat = q.val) : j.WellFormed := by
    have := r.isLt
    have := q.isLt
    simp only [Instr.WellFormed, hj, List.mem_cons, List.not_mem_nil, or_false, forall_eq_or_imp,
      forall_eq]
    omega
  have hsp : s.preDecrement.reg RegId.sp = s.reg RegId.sp - 1 :=
    (s.reg_preDecrement RegId.sp).trans (if_pos rfl)
  cases i with
  | nop => cases h; right; simp [Instr.WellFormed, Instr.regOperands]
  | hlt => cases h; right; simp [Instr.WellFormed, Instr.regOperands]
  | ret =>
    rw [show exec .ret s = _ from execRet_eq] at h
    cases h; right; simp [Instr.WellFormed, Instr.regOperands]
  | jmp a | jeq a | jne a | pra a | prn a | ldi a b | ld a b | inc a | dec a | not a b =>
    simp only [exec, execJmp, execJeq, execJne, execPra, execPrn, execLdi, execLd, execInc, execDec,
      execNot, jumpIf, emitReg, loadByte, aluUnary, alu_inc, alu_dec, alu_not] at h
    rcases checkReg_cases a with ⟨r, hr, hc⟩ | ⟨hr, hc⟩ <;> rw [hc] at h
    · right
      refine ⟨wf1 rfl hr, ?_⟩
      simp only [ok_bind, pure_eq_ok, State.complete_ok, Host.Outcome.next.injEq] at h
      subst h
      first | (simp; done) | (split <;> simp)
    · left
      exact ⟨a, List.mem_cons_self, hr, (Host.Outcome.next.inj h).symm⟩
  | push a =>
    rcases checkReg_cases a with ⟨r, hr, hc⟩ | ⟨hr, hc⟩
    · rw [show exec (.push a) s = _ from execPush_ok hr] at h
      cases h; right
      exact ⟨wf1 rfl hr, rfl, .inl rfl, .inl rfl, .inr ⟨⟨a, .inl rfl⟩, _, by rw [hsp]; rfl⟩⟩
    · simp only [exec, execPush, hc, error_bind, State.complete_error] at h
      left
      exact ⟨a, List.mem_cons_self, hr, (Host.Outcome.next.inj h).symm⟩
  | call a =>
    rcases checkReg_cases a with ⟨r, hr, hc⟩ | ⟨hr, hc⟩
    · rw [show exec (.call a) s = _ from execCall_ok hr] at h
      cases h; right
      exact ⟨wf1 rfl hr, rfl, .inl rfl, .inl rfl, .inr ⟨⟨a, .inr rfl⟩, _, by rw [hsp]; rfl⟩⟩
    · simp only [exec, execCall, hc, error_bind, State.complete_error] at h
      left
      exact ⟨a, List.mem_cons_self, hr, (Host.Outcome.next.inj h).symm⟩
  | pop a =>
    rcases checkReg_cases a with ⟨r, hr, hc⟩ | ⟨hr, hc⟩
    · rw [show exec (.pop a) s = _ from execPop_ok hr] at h
      cases h; right
      exact ⟨wf1 rfl hr, rfl, .inl rfl, .inl rfl, .inl rfl⟩
    · simp only [exec, execPop, hc, error_bind, State.complete_error] at h
      left
      exact ⟨a, List.mem_cons_self, hr, (Host.Outcome.next.inj h).symm⟩
  | st a b | add a b | sub a b | mul a b | and a b | or a b | xor a b | shl a b | shr a b | cmp a b =>
    simp only [exec, execSt, execAdd, execSub, execMul, execAnd, execOr, execXor, execShl, execShr,
      execCmp, aluBinary, alu_add, alu_sub, alu_mul, alu_and, alu_or, alu_xor, alu_shl, alu_shr] at h
    rcases checkReg_cases a with ⟨r, hr, hc⟩ | ⟨hr, hc⟩ <;> rw [hc] at h
    · rcases checkReg_cases b with ⟨q, hq, hd⟩ | ⟨hq, hd⟩ <;> rw [hd] at h
      · right
        refine ⟨wf2 rfl hr hq, ?_⟩
        simp only [ok_bind, pure_eq_ok, State.complete_ok, Host.Outcome.next.injEq] at h
        subst h
        first | (simp; done) | simp [compareFlag_cases]
      · left
        exact ⟨b, List.mem_cons_of_mem a List.mem_cons_self, hq, (Host.Outcome.next.inj h).symm⟩
    · left
      exact ⟨a, List.mem_cons_self, hr, (Host.Outcome.next.inj h).symm⟩

end Sys2Proof.Machine
end

