-- ==== Sys2Proof/Laws/Step.lean ====
section
/-! SUPPORT. The bytes a step fetches, and the cases of a step. -/

namespace Sys2Proof.Machine

/-! ## Fetched bytes -/

theorem fetchFrom_succ (s : State) (n : Nat) {addr : Nat} (h : addr ≤ 255) :
    fetchFrom s (n + 1) addr = Memory.read s.mem addr :: fetchFrom s n (addr + 1) := by
  simp only [fetchFrom, State.memRead, if_pos h]

theorem fetchFrom_above (s : State) (n : Nat) {addr : Nat} (h : 255 < addr) :
    fetchFrom s n addr = [] := by
  cases n with
  | zero => rfl
  | succ n => simp only [fetchFrom, State.memRead, if_neg (show ¬ addr ≤ 255 by omega)]

theorem fetchBytes_full {s : State} (h : s.pc.toNat ≤ 253) :
    fetchBytes s = [Memory.read s.mem s.pc.toNat, Memory.read s.mem (s.pc.toNat + 1),
      Memory.read s.mem (s.pc.toNat + 2)] := by
  rw [fetchBytes, fetchFrom_succ s 2 (by omega), fetchFrom_succ s 1 (by omega),
    fetchFrom_succ s 0 (by omega), fetchFrom]

theorem fetchBytes_254 {s : State} (h : s.pc.toNat = 254) :
    fetchBytes s = [Memory.read s.mem s.pc.toNat, Memory.read s.mem (s.pc.toNat + 1)] := by
  rw [fetchBytes, fetchFrom_succ s 2 (by omega), fetchFrom_succ s 1 (by omega),
    fetchFrom_above s 1 (by omega)]

theorem fetchBytes_255 {s : State} (h : s.pc.toNat = 255) :
    fetchBytes s = [Memory.read s.mem s.pc.toNat] := by
  rw [fetchBytes, fetchFrom_succ s 2 (by omega), fetchFrom_above s 2 (by omega)]

/-- The opcode fetch never fails (30_encoding.md R52). -/
theorem fetchBytes_cons (s : State) :
    ∃ rest, fetchBytes s = Memory.read s.mem s.pc.toNat :: rest := by
  have := s.pc.isLt
  exact ⟨_, fetchFrom_succ s 2 (by omega)⟩

/-! ## The state a word is placed in -/

theorem State.readyToFetch_run (s : State) : s.readyToFetch.run = .running := by
  unfold State.readyToFetch
  cases h : s.run <;> simp only [] <;> split <;> first | rfl | exact h

theorem State.readyToFetch_pc (s : State) : s.readyToFetch.pc.toNat ≤ 253 := by
  unfold State.readyToFetch
  cases s.run <;> simp only [] <;> split <;> first | assumption | exact Nat.zero_le 253

theorem State.readyToFetch_self {s : State} (hrun : s.run = .running) (hpc : s.pc.toNat ≤ 253) :
    s.readyToFetch = s := by
  simp only [State.readyToFetch, hrun, if_pos hpc]

/-! ## The cases of a step -/

theorem step_of_decode_error {s : State} {e : DecodeError} (hrun : s.run = .running)
    (h : decode (fetchBytes s) = .error e) : step s = .next (s.raise (decodeTrap s.pc e)) := by
  simp only [step, hrun, fetchDecode, h]

/-- A next state of a step comes from a running state, and either a fetch or decode fault was taken
or the decoded instruction was executed. -/
theorem step_cases {s t : State} (h : step s = .next t) :
    s.run = .running ∧
    ((∃ e, decode (fetchBytes s) = .error e ∧ t = s.raise (decodeTrap s.pc e)) ∨
      (∃ i rest, decode (fetchBytes s) = .ok (i, rest) ∧ exec i s = .next t)) := by
  unfold step at h
  split at h
  · cases h
  · cases h
  · next hrun =>
    refine ⟨hrun, ?_⟩
    unfold fetchDecode at h
    cases hd : decode (fetchBytes s) with
    | ok p =>
      rw [hd] at h
      exact .inr ⟨p.1, p.2, rfl, h⟩
    | error e =>
      rw [hd] at h
      exact .inl ⟨e, rfl, (Host.Outcome.next.inj h).symm⟩

end Sys2Proof.Machine
end

