-- ==== Sys2Proof/Laws/Faults.lean ====
section
/-! SUPPORT. The fault each trap leaves, as the statements write it, and the lemmas of Reaches. -/

namespace Sys2Proof.Machine

theorem zeroExtend_eq_ofNat (b : Byte) : b.zeroExtend 9 = BitVec.ofNat 9 b.toNat := by
  apply BitVec.eq_of_toNat_eq
  simp only [BitVec.zeroExtend, BitVec.toNat_setWidth, BitVec.toNat_ofNat]

theorem raise_unknownOpcode (s : State) (op : Byte) :
    s.raise (.unknownOpcode op) = faulted s .unknownOpcode op.toNat := by
  simp only [State.raise, faulted, Trap.cause, zeroExtend_eq_ofNat]

theorem raise_registerIndex (s : State) (i : Byte) :
    s.raise (.registerIndex i) = faulted s .registerIndex i.toNat := by
  simp only [State.raise, faulted, Trap.cause, zeroExtend_eq_ofNat]

theorem raise_memoryRange (s : State) (addr : Nat) :
    s.raise (.memoryRange addr) = faulted s .memoryRange addr := rfl

/-- A property that steps keep holds of every state reached from one that has it. -/
theorem reaches_keeps {P : State → Prop} (hstep : ∀ s t, P s → step s = .next t → P t)
    {s t : State} (h : Reaches s t) (hs : P s) : P t := by
  induction h with
  | refl => exact hs
  | tail _ ht ih => exact hstep _ _ ih ht

end Sys2Proof.Machine
end

