-- ==== Sys2Proof/Laws/PerInstr.lean ====
section
/-! SUPPORT. Facts about every instruction as syntax, one lemma per constructor. -/

namespace Sys2Proof.Laws

/-- The first byte of an instruction's encoding has a row in the table, and the row's format has as
many operand bytes as the encoding has after it (30_encoding.md R50, R56). -/
def EncodeFormat.Statement (i : Instr) : Prop :=
  match encode i with
  | [op] => ∃ j, formatOf op = some (.f0 j)
  | [op, _] => ∃ mk, formatOf op = some (.f1 mk)
  | [op, _, _] => ∃ mk, formatOf op = some (.f2 mk)
  | _ => False

theorem EncodeFormat.nop : EncodeFormat.Statement .nop := ⟨_, rfl⟩
theorem EncodeFormat.hlt : EncodeFormat.Statement .hlt := ⟨_, rfl⟩
theorem EncodeFormat.ret : EncodeFormat.Statement .ret := ⟨_, rfl⟩
theorem EncodeFormat.call (a : Byte) : EncodeFormat.Statement (.call a) := ⟨_, rfl⟩
theorem EncodeFormat.jmp (a : Byte) : EncodeFormat.Statement (.jmp a) := ⟨_, rfl⟩
theorem EncodeFormat.jeq (a : Byte) : EncodeFormat.Statement (.jeq a) := ⟨_, rfl⟩
theorem EncodeFormat.jne (a : Byte) : EncodeFormat.Statement (.jne a) := ⟨_, rfl⟩
theorem EncodeFormat.push (a : Byte) : EncodeFormat.Statement (.push a) := ⟨_, rfl⟩
theorem EncodeFormat.pop (a : Byte) : EncodeFormat.Statement (.pop a) := ⟨_, rfl⟩
theorem EncodeFormat.pra (a : Byte) : EncodeFormat.Statement (.pra a) := ⟨_, rfl⟩
theorem EncodeFormat.prn (a : Byte) : EncodeFormat.Statement (.prn a) := ⟨_, rfl⟩
theorem EncodeFormat.ldi (a b : Byte) : EncodeFormat.Statement (.ldi a b) := ⟨_, rfl⟩
theorem EncodeFormat.ld (a b : Byte) : EncodeFormat.Statement (.ld a b) := ⟨_, rfl⟩
theorem EncodeFormat.st (a b : Byte) : EncodeFormat.Statement (.st a b) := ⟨_, rfl⟩
theorem EncodeFormat.inc (a : Byte) : EncodeFormat.Statement (.inc a) := ⟨_, rfl⟩
theorem EncodeFormat.dec (a : Byte) : EncodeFormat.Statement (.dec a) := ⟨_, rfl⟩
theorem EncodeFormat.add (a b : Byte) : EncodeFormat.Statement (.add a b) := ⟨_, rfl⟩
theorem EncodeFormat.sub (a b : Byte) : EncodeFormat.Statement (.sub a b) := ⟨_, rfl⟩
theorem EncodeFormat.mul (a b : Byte) : EncodeFormat.Statement (.mul a b) := ⟨_, rfl⟩
theorem EncodeFormat.and (a b : Byte) : EncodeFormat.Statement (.and a b) := ⟨_, rfl⟩
theorem EncodeFormat.or (a b : Byte) : EncodeFormat.Statement (.or a b) := ⟨_, rfl⟩
theorem EncodeFormat.xor (a b : Byte) : EncodeFormat.Statement (.xor a b) := ⟨_, rfl⟩
theorem EncodeFormat.not (a b : Byte) : EncodeFormat.Statement (.not a b) := ⟨_, rfl⟩
theorem EncodeFormat.shl (a b : Byte) : EncodeFormat.Statement (.shl a b) := ⟨_, rfl⟩
theorem EncodeFormat.shr (a b : Byte) : EncodeFormat.Statement (.shr a b) := ⟨_, rfl⟩
theorem EncodeFormat.cmp (a b : Byte) : EncodeFormat.Statement (.cmp a b) := ⟨_, rfl⟩

end Sys2Proof.Laws
end

