-- ==== Sys2Proof/Tests/Slice0.lean ====
section
/-! SUPPORT. Tests on fixed values and witnesses of the statements' hypotheses. Expected values are those of spec/95_test_vectors.md (its section is named) or of the rule named; bytes are written out from 30_encoding.md R55. -/

namespace Sys2Proof.Tests

open Sys2Proof.Machine

/-! ## Helpers -/

/-- The reset state with bytes at `pc` and PC there. -/
def placed (pc : Byte) (bytes : List Byte) : State :=
  { State.reset with pc := pc, mem := writeBytes [] pc.toNat bytes }

/-- The next state, if there is one. -/
def nextOf (o : StepOutcome) : Option State :=
  match o with
  | .next t => some t
  | .fault _ => none
  | .refused _ => none

/-- One step at the reset state with these bytes at 0 and these values in R0 and R1: R0 after it and
the next PC. -/
def runR0 (bytes : List Byte) (r0 r1 : Byte) : Option (Byte × Byte) :=
  (nextOf (step (((placed 0 bytes).setReg 0 r0).setReg 1 r1))).map fun t => (t.reg 0, t.pc)

/-- RUN, the cause's number and its info after one step at PC `pc`; PC after it. -/
def faultAt (pc : Byte) (bytes : List Byte) : Option (RunState × Nat × Nat × Byte) :=
  (nextOf (step (placed pc bytes))).map fun t =>
    (t.run, t.cause.code.number.toNat, t.cause.info.toNat, t.pc)

/-! ## Decoding: every constructor from its row of R55 -/

theorem test_decode_one_byte :
    decodeTableWord 8 0b00000000 = some .nop ∧ decodeTableWord 8 0b00000001 = some .hlt ∧
    decodeTableWord 8 0b00010001 = some .ret := by decide

theorem test_decode_control :
    decodeTableWord 16 0b00000111_01010000 = some (.call 7) ∧
    decodeTableWord 16 0b00000110_01010100 = some (.jmp 6) ∧
    decodeTableWord 16 0b00000101_01010101 = some (.jeq 5) ∧
    decodeTableWord 16 0b00000100_01010110 = some (.jne 4) := by decide

theorem test_decode_stack_and_output :
    decodeTableWord 16 0b00000011_01000101 = some (.push 3) ∧
    decodeTableWord 16 0b00000010_01000110 = some (.pop 2) ∧
    decodeTableWord 16 0b00000001_01001000 = some (.pra 1) ∧
    decodeTableWord 16 0b00000111_01000111 = some (.prn 7) := by decide

theorem test_decode_transfer :
    decodeTableWord 24 0b10000001_00000101_10000010 = some (.ldi 5 0x81) ∧
    decodeTableWord 24 0b11001000_00000010_10000011 = some (.ld 2 0xC8) ∧
    decodeTableWord 24 0b00000110_00000001_10000100 = some (.st 1 6) := by decide

theorem test_decode_arithmetic :
    decodeTableWord 16 0b00000110_01100101 = some (.inc 6) ∧
    decodeTableWord 16 0b00000001_01100110 = some (.dec 1) ∧
    decodeTableWord 24 0b00000010_00000001_10100000 = some (.add 1 2) ∧
    decodeTableWord 24 0b00000100_00000011_10100001 = some (.sub 3 4) ∧
    decodeTableWord 24 0b00000110_00000101_10100010 = some (.mul 5 6) := by decide

theorem test_decode_logic :
    decodeTableWord 24 0b00000001_00000000_10101000 = some (.and 0 1) ∧
    decodeTableWord 24 0b00000111_00000010_10101010 = some (.or 2 7) ∧
    decodeTableWord 24 0b00000011_00000100_10101011 = some (.xor 4 3) ∧
    decodeTableWord 24 0b11111111_00000001_01101001 = some (.not 1 0xFF) := by decide

theorem test_decode_shift_and_compare :
    decodeTableWord 24 0b00000010_00000001_10101100 = some (.shl 1 2) ∧
    decodeTableWord 24 0b00000001_00000000_10101101 = some (.shr 0 1) ∧
    decodeTableWord 24 0b00000110_00000101_10100111 = some (.cmp 5 6) := by decide

/-- The bits above `nbits` are 0: a row asked for with fewer bits has zero operands. -/
theorem test_decode_short_word :
    decodeTableWord 8 0xA0 = some (.add 0 0) ∧ decodeTableWord 8 0xFFA0 = some (.add 0 0) := by decide

/-- R57: the bytes next to the table's rows, each rejected by name. -/
theorem test_decode_unknown_by_name :
    ∀ op ∈ ([0x02, 0x10, 0x12, 0x44, 0x49, 0x4F, 0x51, 0x53, 0x57, 0x64, 0x67, 0x68, 0x6A, 0x81,
      0x85, 0x9F, 0xA3, 0xA6, 0xA9, 0xAE, 0xFF] : List Byte),
      decode [op, 0, 0] = .error (.unknownOpcode op) := by decide

/-- R52: a missing operand byte is rejected by name. -/
theorem test_decode_missing_by_name :
    decode [] = .error .noOpcode ∧ decode [0x65] = .error (.missingOperand 1) ∧
    decode [0x82] = .error (.missingOperand 1) ∧ decode [0x69, 0x01] = .error (.missingOperand 2) := by
  decide

/-! ## WellFormed: one ill-formed term for each check -/

theorem test_illFormed_one_operand :
    ∀ i ∈ [Instr.call 8, .jmp 8, .jeq 8, .jne 8, .push 8, .pop 8, .pra 8, .prn 255, .inc 8, .dec 8],
      ¬ i.WellFormed := by decide

theorem test_illFormed_operand_a :
    ∀ i ∈ [Instr.ldi 8 0, .ld 8 0, .not 8 0, .st 8 0, .add 8 0, .sub 8 0, .mul 8 0, .and 8 0,
      .or 8 0, .xor 8 0, .shl 8 0, .shr 8 0, .cmp 8 0], ¬ i.WellFormed := by decide

theorem test_illFormed_operand_b :
    ∀ i ∈ [Instr.st 0 8, .add 0 8, .sub 0 8, .mul 0 8, .and 0 8, .or 0 8, .xor 0 8, .shl 0 8,
      .shr 0 8, .cmp 1 16], ¬ i.WellFormed := by decide

/-- R54: the second byte of LDI, LD and NOT is no register; and 7 is legal. -/
theorem test_wellFormed :
    ∀ i ∈ [Instr.nop, .hlt, .ret, .ldi 7 0xFF, .ld 7 0xFF, .not 7 0xFF, .cmp 7 7, .push 7],
      i.WellFormed := by decide

/-! ## The ALU (95_test_vectors.md section 2.1) -/

theorem test_add :
    runR0 [0xA0, 0x00, 0x01] 0xC8 0x64 = some (0x2C, 3) ∧
    runR0 [0xA0, 0x00, 0x01] 0xFF 0x01 = some (0x00, 3) := by decide

theorem test_sub :
    runR0 [0xA1, 0x00, 0x01] 0x00 0x01 = some (0xFF, 3) ∧
    runR0 [0xA1, 0x00, 0x01] 0x05 0x03 = some (0x02, 3) := by decide

theorem test_mul :
    runR0 [0xA2, 0x00, 0x01] 0xFF 0xFF = some (0x01, 3) ∧
    runR0 [0xA2, 0x00, 0x01] 0x0C 0x15 = some (0xFC, 3) := by decide

theorem test_inc :
    runR0 [0x65, 0x00] 0xFF 0 = some (0x00, 2) ∧ runR0 [0x65, 0x00] 0x7F 0 = some (0x80, 2) := by
  decide

theorem test_dec :
    runR0 [0x66, 0x00] 0x00 0 = some (0xFF, 2) ∧ runR0 [0x66, 0x00] 0x80 0 = some (0x7F, 2) := by
  decide

theorem test_and :
    runR0 [0xA8, 0x00, 0x01] 0xF0 0x3C = some (0x3C, 3) ∧
    runR0 [0xA8, 0x00, 0x01] 0x00 0xFF = some (0xFF, 3) := by decide

theorem test_or :
    runR0 [0xAA, 0x00, 0x01] 0xF0 0x0F = some (0x0F, 3) ∧
    runR0 [0xAA, 0x00, 0x01] 0xFF 0x00 = some (0x00, 3) := by decide

theorem test_xor :
    runR0 [0xAB, 0x00, 0x01] 0xF0 0x3C = some (0x00, 3) ∧
    runR0 [0xAB, 0x00, 0x01] 0x00 0xFF = some (0x00, 3) := by decide

theorem test_not :
    runR0 [0x69, 0x00, 0x99] 0x5A 0 = some (0xA5, 3) ∧
    runR0 [0x69, 0x00, 0xFF] 0x00 0 = some (0xFF, 3) := by decide

theorem test_shl :
    runR0 [0xAC, 0x00, 0x01] 0x81 0x01 = some (0x02, 3) ∧
    runR0 [0xAC, 0x00, 0x01] 0x01 0xC8 = some (0x00, 3) := by decide

theorem test_shr :
    runR0 [0xAD, 0x00, 0x01] 0x80 0x07 = some (0x01, 3) ∧
    runR0 [0xAD, 0x00, 0x01] 0xFF 0x08 = some (0x00, 3) := by decide

/-- The same register as both operands, R2 = 0x96 (section 2.1). -/
theorem test_same_register :
    [0xA0, 0xA1, 0xA2, 0xA8, 0xAA, 0xAB, 0xAC, 0xAD].map (fun op =>
      (nextOf (step ((placed 0 [op, 2, 2]).setReg 2 0x96))).map fun t => t.reg 2)
    = [0x2C, 0x00, 0xE4, 0x96, 0x96, 0x00, 0x00, 0x00].map some := by decide

/-- R85: outside its set the ALU raises by name. -/
theorem test_alu_invalid : alu 0xA7 1 2 = .error (.aluInvalidOp 0xA7) := by decide

/-! ## Loop control (section 2.2) -/

theorem test_nop :
    nextOf (step (placed 0xFF [0x00])) = some { placed 0xFF [0x00] with pc := 0x00 } := by decide

theorem test_hlt :
    nextOf (step (placed 0xFF [0x01]))
      = some { placed 0xFF [0x01] with pc := 0x00, run := .halted } := by decide

/-- No step exists once the run has ended. -/
theorem test_ended :
    step { State.reset with run := .halted } = .fault .runHalted ∧
    step { State.reset with run := .fatalError } = .fault .runFatalError := ⟨rfl, rfl⟩

/-! ## Stack and subroutine (section 2.3) -/

theorem test_push :
    nextOf (step ((placed 0 [0x45, 0x00]).setReg 0 0xAB))
      = some { regs := { r0 := 0xAB, r1 := 0, r2 := 0, r3 := 0, r4 := 0, r5 := 0, r6 := 0, r7 := 0xF3 },
               pc := 0x02, fl := 0, run := .running, cause := Cause.reset,
               mem := [(0, 0x45), (0xF3, 0xAB)], out := [] } := by decide

/-- D11: SP = 0x00 wraps; R115: PUSH R7 stores the decremented SP. -/
theorem test_push_edges :
    (nextOf (step (((placed 2 [0x45, 0x00]).setReg 0 0xAB).setReg 7 0x00))).map
      (fun t => (t.reg 7, Memory.read t.mem 0xFF)) = some (0xFF, 0xAB) ∧
    (nextOf (step (placed 2 [0x45, 0x07]))).map
      (fun t => (t.reg 7, Memory.read t.mem 0xF3)) = some (0xF3, 0xF3) := by decide

theorem test_pop :
    (nextOf (exec (.pop 1) { State.reset with mem := [(0xFF, 0xAB)], regs := State.reset.regs.set 7 0xFF })).map
      (fun t => (t.reg 1, t.reg 7, t.pc, Memory.read t.mem 0xFF)) = some (0xAB, 0x00, 2, 0xAB) := by decide

/-- R115: POP R7 ends with the popped byte plus 1. -/
theorem test_pop_sp :
    (nextOf (exec (.pop 7) { State.reset with mem := [(0xF4, 0x41)] })).map
      (fun t => t.reg 7) = some 0x42 := by decide

theorem test_call :
    (nextOf (step ((placed 0x06 [0x50, 0x01]).setReg 1 0x0D))).map
      (fun t => (t.pc, t.reg 7, Memory.read t.mem 0xF3)) = some (0x0D, 0xF3, 0x08) := by decide

/-- The return address of a CALL at 0xFE is 0x00; R115: CALL R7 jumps to the decremented SP. -/
theorem test_call_edges :
    (nextOf (step ((placed 0xFE [0x50, 0x01]).setReg 1 0x10))).map
      (fun t => (t.pc, t.reg 7, Memory.read t.mem 0xF3)) = some (0x10, 0xF3, 0x00) ∧
    (nextOf (step (placed 0x20 [0x50, 0x07]))).map
      (fun t => (t.pc, t.reg 7, Memory.read t.mem 0xF3)) = some (0xF3, 0xF3, 0x22) := by decide

theorem test_ret :
    (nextOf (step { placed 0x10 [0x11] with mem := [(0x10, 0x11), (0xF4, 0x30)] })).map
      (fun t => (t.pc, t.reg 7)) = some (0x30, 0xF5) ∧
    (nextOf (step ((placed 0xFF [0x11]).setReg 7 0xFF))).map
      (fun t => (t.pc, t.reg 7)) = some (0x11, 0x00) := by decide

/-! ## Compare and branch (sections T5 and 2.4) -/

/-- FL after `CMP R0, R1`. -/
def cmpFl (fl r0 r1 : Byte) : Option Byte :=
  (nextOf (step ((((placed 0 [0xA7, 0x00, 0x01]).setFl fl).setReg 0 r0).setReg 1 r1))).map fun t => t.fl

theorem test_cmp :
    cmpFl 0x00 0x05 0x05 = some 0x01 ∧ cmpFl 0x04 0x55 0x55 = some 0x01 ∧
    cmpFl 0x00 0x80 0x7F = some 0x02 ∧ cmpFl 0x01 0x7F 0x80 = some 0x04 := by decide

/-- The next PC of a branch at 0x10 whose target register holds 0x80. -/
def branchPc (op fl : Byte) : Option Byte :=
  (nextOf (step (((placed 0x10 [op, 0x02]).setReg 2 0x80).setFl fl))).map fun t => t.pc

theorem test_jmp : branchPc 0x54 0x00 = some 0x80 := by decide

theorem test_jeq :
    [0x00, 0x01, 0x02, 0x04].map (branchPc 0x55) = [0x12, 0x80, 0x12, 0x12].map some := by decide

theorem test_jne :
    [0x00, 0x01, 0x02, 0x04].map (branchPc 0x56) = [0x12, 0x12, 0x80, 0x80].map some := by decide

/-! ## Data transfer (section 2.5) -/

theorem test_ldi : runR0 [0x82, 0x00, 0x2A] 0 0 = some (0x2A, 3) := by decide

/-- LDI R7 moves the stack pointer; at 0xFD the next PC is 0 (T6). -/
theorem test_ldi_sp :
    (nextOf (step (placed 0xFD [0x82, 0x07, 0x80]))).map (fun t => (t.reg 7, t.pc)) = some (0x80, 0) := by
  decide

theorem test_ld :
    runR0 [0x83, 0x00, 0x01] 0 0x77 = some (0x01, 3) ∧
    runR0 [0x83, 0x00, 0xFF] 0 0 = some (0xFF, 3) := by decide

theorem test_st :
    runR0 [0x84, 0x00, 0x01] 0x07 0x0D = some (0x0D, 3) ∧
    runR0 [0x84, 0x00, 0x07] 0 0 = some (0xF4, 3) := by decide

/-! ## Output (section 2.6) -/

theorem test_prn :
    (nextOf (step (placed 0 [0x47, 0x07]))).map (fun t => (t.out, t.pc))
      = some ([{ kind := .prn, value := 244 }], 2) := by decide

theorem test_pra :
    (nextOf (step ((placed 0 [0x48, 0x00]).setReg 0 0x48))).map (fun t => (t.out, t.pc))
      = some ([{ kind := .pra, value := 0x48 }], 2) := by decide

/-- R143: "42" and a newline, then H; "0", "255". -/
theorem test_text :
    State.text { State.reset with out := [⟨.prn, 42⟩, ⟨.pra, 72⟩, ⟨.prn, 0⟩, ⟨.prn, 255⟩] }
      = [52, 50, 10, 72, 48, 10, 50, 53, 53, 10] := by decide

/-! ## Faults (section 2.7, T7) -/

theorem test_unknown :
    faultAt 0 [0x13, 0x82, 0x00, 0x01] = some (.fatalError, 1, 0x13, 0) ∧
    faultAt 0xFF [0x13] = some (.fatalError, 1, 0x13, 0xFF) := by decide

theorem test_registerIndex :
    faultAt 0 [0xA0, 0x09, 0x08] = some (.fatalError, 3, 9, 0) ∧
    faultAt 0 [0xA7, 0x01, 0x10] = some (.fatalError, 3, 16, 0) ∧
    faultAt 0 [0x84, 0x00, 0x08] = some (.fatalError, 3, 8, 0) ∧
    faultAt 0 [0x55, 0x08] = some (.fatalError, 3, 8, 0) := by decide

/-- A faulting PUSH leaves SP and everything else (R156). -/
theorem test_push_fault :
    nextOf (step (placed 0 [0x45, 0x08]))
      = some { placed 0 [0x45, 0x08] with
          run := .fatalError, cause := { code := .registerIndex, info := 8 } } := by decide

theorem test_memoryRange :
    faultAt 0xFE [0x82, 0x09] = some (.fatalError, 2, 256, 0xFE) ∧
    faultAt 0xFF [0x82] = some (.fatalError, 2, 256, 0xFF) ∧
    faultAt 0xFF [0x65] = some (.fatalError, 2, 256, 0xFF) ∧
    faultAt 0xFE [0x65, 0x01] = some (.running, 0, 0, 0) := by decide

/-! ## The host's interface -/

/-- R184: a program of two bytes, and 0x00 above it. -/
theorem test_program_loads :
    (Image.ofProgram [0x47, 0x07]).map (fun m => (State.initial m).mem) = some [(0, 0x47), (1, 0x07)] := by
  decide +kernel

/-- A table word placed at reset runs as the next step: LDI R0, 42. -/
theorem test_withFetchWord :
    (nextOf (Sys2Proof.core.step (State.reset.withFetchWord 24 0x2A0082))).map (fun t => t.reg 0)
      = some 0x2A := by decide

/-! ## Witnesses: hypotheses of the statements met by concrete states and operands, at the edges -/

/-- A running state with `op` at PC. -/
abbrev RunsAt (op pc : Byte) : Prop :=
  (placed pc [op]).run = .running ∧ Memory.read (placed pc [op]).mem (placed pc [op]).pc.toNat = op

/-- The hypotheses of each clause of `RuleReg`: legal operands 0 and 7, illegal 8 and 255, the opcode at
PC 255. -/
abbrev MeetsRuleReg (op : Byte) : Prop :=
  (0x00#8).toNat = (0 : RegId).val ∧ (0x07#8).toNat = (7 : RegId).val ∧
  7 < (0x08#8).toNat ∧ 7 < (0xFF#8).toNat ∧ RunsAt op 0xFF ∧ 255 ≤ (0xFF#8).toNat

/-- The same for `RuleRegByte` and `RuleRegReg`: operands 0, 7 legal and 8, 255 illegal, the opcode at
PC 254 and 255. -/
abbrev MeetsRuleTwo (op : Byte) : Prop :=
  MeetsRuleReg op ∧ (0x07#8).toNat ≤ 7 ∧ RunsAt op 0xFE ∧ 254 ≤ (0xFE#8).toNat

theorem witness_RegisterReadAfterWrite : (0 : RegId) ≠ 7 := by decide

theorem witness_MemoryReadAfterWrite : 0 ≤ 255 ∧ 255 ≤ 255 ∧ 255 < 256 := by decide

theorem witness_ProgramLoadsFromAddressZero :
    ([] : List Byte).length ≤ 256 ∧ (List.replicate 256 (0x01 : Byte)).length ≤ 256 :=
  ⟨Nat.zero_le _, List.length_replicate.le⟩

/-- The ends of every range of R57, and the opcodes next to them that are known. -/
theorem witness_UnknownOpcodesAreTheListedRanges :
    (∀ b ∈ [0x02, 0x10, 0x12, 0x44, 0x49, 0x4F, 0x51, 0x53, 0x57, 0x64, 0x67, 0x68, 0x6A, 0x81, 0x85,
      0x9F, 0xA3, 0xA6, 0xA9, 0xAE, 0xFF], UnknownByte b) ∧
    (∀ b ∈ [0x00, 0x01, 0x11, 0x45, 0x48, 0x50, 0x54, 0x56, 0x65, 0x66, 0x69, 0x82, 0x84, 0xA0, 0xA2,
      0xA7, 0xA8, 0xAA, 0xAD], ¬ UnknownByte b) ∧
    RunsAt 0x02 0x00 ∧ RunsAt 0xFF 0xFF := by
  decide

theorem witness_StepRunsDecodedInstruction :
    (placed 0xFD [0x82, 0x07, 0xFF]).run = .running ∧
    decode (fetchBytes (placed 0xFD [0x82, 0x07, 0xFF])) = .ok (.ldi 7 0xFF, []) ∧
    decode (fetchBytes (placed 0xFF [0x11])) = .ok (.ret, []) := ⟨rfl, rfl, rfl⟩

theorem witness_StepRunsBytesAtPc :
    let s := placed 0xFD [0xA0, 0x07, 0x01]
    s.run = .running ∧ ∀ k (h : k < (encode (.add 7 1)).length),
      s.pc.toNat + k ≤ 255 ∧ Memory.read s.mem (s.pc.toNat + k) = (encode (.add 7 1))[k] := by
  decide

/-- Every answer of `decodeFault`, each at an edge. -/
theorem witness_StepRaisesFirstFaultInDecodeOrder :
    decodeFault (placed 0xFF [0x13]) = some (.unknownOpcode, 0x13) ∧
    decodeFault (placed 0xFF [0x65]) = some (.memoryRange, 256) ∧
    decodeFault (placed 0xFE [0x69, 0x09]) = some (.memoryRange, 256) ∧
    decodeFault (placed 0xFD [0xA0, 0x08, 0xFF]) = some (.registerIndex, 8) ∧
    decodeFault (placed 0xFD [0xA0, 0x07, 0x08]) = some (.registerIndex, 8) ∧
    decodeFault (placed 0xFD [0x69, 0x07, 0xFF]) = none ∧
    decodeFault (placed 0xFE [0x65, 0x07]) = none ∧
    decodeFault (placed 0xFF [0x00]) = none := by decide

/-- A step to Halted, a step to FatalError, an ended run that reaches itself, an instruction that
executes. -/
theorem witness_RunStateChangesOnlyByHltOrFault :
    (∃ t, step (placed 0xFF [0x01]) = .next t ∧ t.run = .halted) ∧
    (∃ t, step (placed 0xFF [0x13]) = .next t ∧ t.run = .fatalError) ∧
    (Reaches (State.reset.setRun .halted) (State.reset.setRun .halted) ∧
      (State.reset.setRun .halted).run ≠ .running) ∧
    (∃ t, exec .hlt State.reset = .next t) :=
  ⟨⟨_, rfl, rfl⟩, ⟨_, rfl, rfl⟩, ⟨.refl, by decide⟩, ⟨_, rfl⟩⟩

theorem witness_EndedRunStopsByName :
    (State.reset.setRun .halted).run = .halted ∧ (State.reset.setRun .fatalError).run = .fatalError :=
  ⟨rfl, rfl⟩

/-- The words of the longest and of a one-byte row; the statement holds in every state. -/
theorem witness_PlacedWordRunsNext :
    decodeTableWord 24 0xFF0769 = some (.not 7 0xFF) ∧ decodeTableWord 8 0x11 = some .ret := by decide

theorem witness_FaultChangesOnlyRunAndCause :
    ∃ t, step (placed 0xFE [0x82, 0x09]) = .next t ∧ t.run = .fatalError := ⟨_, rfl, rfl⟩

/-- A three-byte instruction at 253, whose next PC is 0. -/
theorem witness_StraightLinePcIsModulo256 :
    decode (fetchBytes (placed 0xFD [0x82, 0x07, 0xFF])) = .ok (.ldi 7 0xFF, []) ∧
    Instr.ldi 7 0xFF ≠ .ret ∧
    (∀ a, Instr.ldi 7 0xFF ≠ .call a ∧ Instr.ldi 7 0xFF ≠ .jmp a ∧ Instr.ldi 7 0xFF ≠ .jeq a ∧
      Instr.ldi 7 0xFF ≠ .jne a) ∧
    ∃ t, step (placed 0xFD [0x82, 0x07, 0xFF]) = .next t ∧ t.run ≠ .fatalError ∧ t.pc = 0 :=
  ⟨rfl, by decide, by simp, _, rfl, by decide, by decide⟩

theorem witness_AddWritesSum : MeetsRuleTwo 0xA0 := by decide
theorem witness_SubWritesDifference : MeetsRuleTwo 0xA1 := by decide
theorem witness_MulWritesLowByteOfProduct : MeetsRuleTwo 0xA2 := by decide
theorem witness_IncAddsOne : MeetsRuleReg 0x65 := by decide
theorem witness_DecSubtractsOne : MeetsRuleReg 0x66 := by decide
theorem witness_AndCopiesSource : MeetsRuleTwo 0xA8 := by decide
theorem witness_OrCopiesSource : MeetsRuleTwo 0xAA := by decide
theorem witness_XorClearsDestination : MeetsRuleTwo 0xAB := by decide
theorem witness_NotComplementsAndIgnoresSecondByte : MeetsRuleTwo 0x69 := by decide
theorem witness_ShlShiftsByWholeRegister : MeetsRuleTwo 0xAC := by decide
theorem witness_ShrShiftsByWholeRegister : MeetsRuleTwo 0xAD := by decide
theorem witness_LdiLoadsImmediate : MeetsRuleTwo 0x82 := by decide
theorem witness_LdLoadsRawOperandByte : MeetsRuleTwo 0x83 := by decide
theorem witness_StCopiesRegister : MeetsRuleTwo 0x84 := by decide
theorem witness_PushDecrementsThenStores : MeetsRuleReg 0x45 := by decide
theorem witness_PopReadsThenIncrements : MeetsRuleReg 0x46 := by decide
theorem witness_CallStoresReturnAddressAndJumps : MeetsRuleReg 0x50 := by decide
theorem witness_JmpJumps : MeetsRuleReg 0x54 := by decide
theorem witness_PrnEmitsNumber : MeetsRuleReg 0x47 := by decide
theorem witness_PraEmitsCharacter : MeetsRuleReg 0x48 := by decide

/-- And the three outcomes: equal, greater and less by one. -/
theorem witness_CmpSetsOneOutcome :
    MeetsRuleTwo 0xA7 ∧ (0x80#8).toNat = (0x80#8).toNat ∧ (0x80#8).toNat > (0x7F#8).toNat ∧
    (0x7F#8).toNat < (0x80#8).toNat := by decide

/-- And a state in which each branch of the test is taken. -/
theorem witness_JeqJumpsIfEqual :
    MeetsRuleReg 0x55 ∧ (State.reset.setFl 0x01).fl = Config.flags.equal ∧
    State.reset.fl ≠ Config.flags.equal := by decide

theorem witness_JneJumpsIfAboveEqual :
    MeetsRuleReg 0x56 ∧ (State.reset.setFl 0x02).fl.toNat > Config.flags.equal.toNat ∧
    ¬ (State.reset.setFl 0x01).fl.toNat > Config.flags.equal.toNat := by decide

/-- The ALU's set and a byte outside it; a state with cause 4 in which an instruction and a step keep
it (no run reaches one). -/
theorem witness_AluInvalidOpIsUnreachable :
    (0xA0 : Byte) ∈ aluOpcodes ∧ (0xA7 : Byte) ∉ aluOpcodes ∧
    (let s : State := { State.reset with cause := { code := .aluInvalidOp, info := 0 } }
     (∃ t, exec .nop s = .next t ∧ t.cause.code = .aluInvalidOp) ∧
     ∃ t, step s = .next t ∧ t.cause.code = .aluInvalidOp) :=
  ⟨by decide, by decide, ⟨_, rfl, rfl⟩, ⟨_, rfl, rfl⟩⟩

theorem witness_PushThenPopRestores :
    (0x00#8).toNat = (0 : RegId).val ∧ (0x07#8).toNat = (7 : RegId).val := by decide

/-- The state after the CALL itself, with PC moved: SP and the stack cell are as the CALL left them. -/
theorem witness_CallThenRetResumes :
    (0x07#8).toNat = (7 : RegId).val ∧ ∃ t u : State, exec (.call 7) State.reset = .next t ∧
      u.reg RegId.sp = t.reg RegId.sp ∧
      Memory.read u.mem (t.reg RegId.sp).toNat = Memory.read t.mem (t.reg RegId.sp).toNat ∧
      u.pc ≠ t.pc :=
  ⟨by decide, _, State.setPc _ 0x11, rfl, rfl, rfl, by decide⟩

/-- The default encoding and another one meet the constraints of R5. -/
theorem witness_BranchTableForAnyEncoding :
    Config.flags.Admissible ∧
    FlagEncoding.Admissible { equal := 0x02, greater := 0xFF, less := 0x03, reset := 0x01 } := by decide

theorem witness_BranchAfterCompare :
    (0x00#8).toNat = (0 : RegId).val ∧ (0x07#8).toNat = (7 : RegId).val ∧
    State.reset.reg 0 ≠ State.reset.reg 7 ∧ State.reset.reg 0 = State.reset.reg 1 := by decide

theorem witness_TextOfPrnAndPra :
    (0x00#8).toNat = (0 : RegId).val ∧ (0x07#8).toNat = (7 : RegId).val := by decide

theorem witness_HostStatusOfEndedRun :
    (∃ t, exec .hlt State.reset = .next t) ∧
    (∃ t, step (placed 0xFF [0x13]) = .next t) ∧ (decodeFault (placed 0xFF [0x13])).isSome :=
  ⟨⟨_, rfl⟩, ⟨_, rfl⟩, by decide⟩

/-- A CMP that changes FL, and an instruction that is no JEQ and no JNE. -/
theorem witness_FlagsWrittenOnlyByCmp :
    (∃ t, exec (.cmp 0 7) State.reset = .next t ∧ t.fl ≠ State.reset.fl) ∧
    ((0x00#8).toNat ≤ 7 ∧ (0x07#8).toNat ≤ 7) ∧
    (∀ a, Instr.add 0 7 ≠ .jeq a ∧ Instr.add 0 7 ≠ .jne a) ∧ ∃ t, exec (.add 0 7) State.reset = .next t :=
  ⟨⟨_, rfl, by decide⟩, by decide, by simp, _, rfl⟩

/-- R5 and R6 beside an instruction that names neither. -/
theorem witness_UnnamedRegistersAreInert :
    (5 : RegId) ≠ RegId.sp ∧ (6 : RegId) ≠ RegId.sp ∧
    (∀ a ∈ (Instr.add 0 7).regOperands, a.toNat ≠ (5 : RegId).val ∧ a.toNat ≠ (6 : RegId).val) ∧
    ∃ t, exec (.add 0 7) State.reset = .next t :=
  ⟨by decide, by decide, by decide, _, rfl⟩

/-- A PUSH at SP = 0x00 changes the byte at 0xFF. -/
theorem witness_MemoryWrittenOnlyByPushAndCall :
    let s := (placed 0x10 [0x45, 0x07]).setReg 7 0x00
    ∃ t, step s = .next t ∧ Memory.read t.mem 0xFF ≠ Memory.read s.mem 0xFF :=
  ⟨_, rfl, by decide⟩

/-- An instruction that appends an event, and one that appends none. -/
theorem witness_OutputOnlyGrows :
    (∃ t, exec (.prn 7) State.reset = .next t ∧ t.out ≠ []) ∧
    ∃ t, exec .nop State.reset = .next t ∧ t.out = [] :=
  ⟨⟨_, rfl, by decide⟩, _, rfl, rfl⟩

/-- The reset state meets the invariant and has a next state. -/
theorem witness_StepKeepsInvariant : State.reset.Inv ∧ ∃ t, step State.reset = .next t :=
  ⟨⟨by decide, .inl rfl, rfl⟩, _, rfl⟩

/-- A run of one step from the all-zero image: a NOP. -/
theorem witness_RunsFromAnyImageKeepInvariant :
    ∃ t, Reaches (State.initial (Vector.replicate 256 0x00)) t ∧ t.pc = 1 := by
  have h : (nextOf (step (State.initial (Vector.replicate 256 0x00)))).map State.pc = some 1 := by
    decide +kernel
  cases hs : step (State.initial (Vector.replicate 256 0x00)) with
  | next t =>
    rw [hs] at h
    exact ⟨t, .tail .refl hs, Option.some.inj h⟩
  | fault r => rw [hs] at h; cases h
  | refused r => rw [hs] at h; cases h

/-- A state that is safe and whose run is not, and one whose run is. -/
theorem witness_SafeRunsAreThoseWithoutDecodeFault :
    (placed 0 [0x13]).Safe ∧ ¬ SafeRun (placed 0 [0x13]) ∧
    (State.reset.setRun .halted).Safe ∧ SafeRun (State.reset.setRun .halted) := by
  refine ⟨by simp [State.Safe, placed, State.reset],
    fun h => h _ (.tail .refl (t := placed 0 [0x13]) rfl) rfl,
    by simp [State.Safe], fun t h => ?_⟩
  have : t = State.reset.setRun .halted := by
    induction h with
    | refl => rfl
    | tail _ hs ih => subst ih; cases hs
  simp [this, State.Safe]

end Sys2Proof.Tests
end

namespace Sys2Proof

open Machine

/-! ## Operands that are no register index (30_encoding.md R53, R58) -/

/-- The first register operand that is no register index, in the order R58 checks them. -/
def Instr.illegalOperand (i : Instr) : Option Byte :=
  i.regOperands.find? fun r => decide (7 < r.toNat)

theorem Instr.illegalOperand_eq_none {i : Instr} : i.illegalOperand = none ↔ i.WellFormed := by
  simp [Instr.illegalOperand, Instr.WellFormed]

theorem illegalOperand_of_one {i : Instr} {a x : Byte} (hi : i.regOperands = [a])
    (h : i.illegalOperand = some x) : 7 < a.toNat ∧ a = x := by
  simpa [Instr.illegalOperand, hi] using h

theorem illegalOperand_of_two {i : Instr} {a b x : Byte} (hi : i.regOperands = [a, b])
    (h : i.illegalOperand = some x) :
    (7 < a.toNat ∧ a = x) ∨ (a.toNat ≤ 7 ∧ 7 < b.toNat ∧ b = x) := by
  rw [Instr.illegalOperand, hi, List.find?_cons] at h
  split at h
  · next ha => exact .inl ⟨of_decide_eq_true ha, Option.some.inj h⟩
  · next ha =>
    have hb : 7 < b.toNat ∧ b = x := by simpa using h
    exact .inr ⟨Nat.le_of_not_lt (of_decide_eq_false ha), hb⟩

/-- The operands of a well-formed instruction are register indices. -/
theorem exists_reg {i : Instr} {a : Byte} (hwf : i.WellFormed) (ha : a ∈ i.regOperands) :
    ∃ ra : RegId, a.toNat = ra.val :=
  ⟨⟨a.toNat, Nat.lt_succ_of_le (hwf a ha)⟩, rfl⟩

theorem exists_reg_pair {i : Instr} {a b : Byte} (hwf : i.WellFormed) (hi : i.regOperands = [a, b]) :
    ∃ ra rb : RegId, a.toNat = ra.val ∧ b.toNat = rb.val := by
  obtain ⟨ra, ha⟩ := exists_reg (a := a) hwf (by simp [hi])
  obtain ⟨rb, hb⟩ := exists_reg (a := b) hwf (by simp [hi])
  exact ⟨ra, rb, ha, hb⟩

/-! ## The rows of the opcode table (30_encoding.md R50, R55) -/

/-- What the format of an opcode byte says of it: which list of the opcodes holds it, and the
encoding and the register operands of the instructions it makes. -/
def Format.Fits (op : Byte) : Format → Prop
  | .f0 i => op ∈ oneByteOpcodes ∧ encode i = [op] ∧ i.regOperands = []
  | .f1 mk => op ∈ twoByteOpcodes ∧ ∀ a, encode (mk a) = [op, a] ∧ (mk a).regOperands = [a]
  | .f2 mk => (∀ a b, encode (mk a b) = [op, a, b]) ∧
      ((op ∈ regRegOpcodes ∧ ∀ a b, (mk a b).regOperands = [a, b]) ∨
        (op ∈ regByteOpcodes ∧ ∀ a b, (mk a b).regOperands = [a]))

theorem fits_of_mem_opcodeTable : ∀ row ∈ opcodeTable, row.format.Fits row.opcode := by
  simp [opcodeTable, tableF0, tableF1, tableF2, Format.Fits, encode, Instr.regOperands,
    oneByteOpcodes, twoByteOpcodes, regRegOpcodes, regByteOpcodes]

theorem fits_of_formatOf {op : Byte} {f : Format} (h : formatOf op = some f) : f.Fits op := by
  obtain ⟨row, hrow, rfl, rfl⟩ := formatOf_eq_some h
  exact fits_of_mem_opcodeTable row hrow

/-- The opcodes of the table are those of the lists written out from R50 and R55. -/
theorem formatOf_eq_none_iff {op : Byte} :
    formatOf op = none ↔ op ∉ oneByteOpcodes ++ twoByteOpcodes ++ threeByteOpcodes := by
  have hperm : (opcodeTable.map OpcodeRow.opcode).Perm
      (oneByteOpcodes ++ twoByteOpcodes ++ threeByteOpcodes) := by decide
  rw [← hperm.mem_iff]
  simp [formatOf]

/-- The bytes of a decoded instruction are its encoding (30_encoding.md R50). -/
theorem eq_encode_append_of_decode {i : Instr} {bytes rest : List Byte}
    (h : decode bytes = .ok (i, rest)) : bytes = encode i ++ rest := by
  unfold decode at h
  split at h
  · cases h
  · next op tail =>
    split at h
    · cases h
    · next hf =>
      obtain ⟨-, henc, -⟩ := fits_of_formatOf hf
      cases h
      rw [henc]; rfl
    · cases h
    · next hf =>
      obtain ⟨-, hmk⟩ := fits_of_formatOf hf
      cases h
      rw [(hmk _).1]; rfl
    · cases h
    · cases h
    · next hf =>
      obtain ⟨henc, -⟩ := fits_of_formatOf hf
      cases h
      rw [henc]; rfl

end Sys2Proof

namespace Sys2Proof.Machine

/-! ## The image in memory (10_state.md R25) -/

/-- Bytes stored from `addr` upward: below `addr` and past their end memory reads as before. -/
theorem read_writeBytes (m : Memory) (addr x : Nat) (bytes : List Byte) :
    Memory.read (writeBytes m addr bytes) x =
      if x < addr then Memory.read m x else bytes.getD (x - addr) (Memory.read m x) := by
  induction bytes generalizing m addr with
  | nil => simp [writeBytes]
  | cons b rest ih =>
    rw [writeBytes, ih, Memory.read_write]
    rcases Nat.lt_trichotomy x addr with hx | rfl | hx
    · rw [if_pos (by omega), if_neg (by omega), if_pos hx]
    · simp
    · obtain ⟨n, rfl⟩ := Nat.exists_eq_add_of_lt hx
      rw [if_neg (by omega), if_neg (by omega), if_neg (by omega),
        show addr + n + 1 - addr = n + 1 by omega, show addr + n + 1 - (addr + 1) = n by omega,
        List.getD_cons_succ]

theorem read_initial (image : Image) (i : Fin 256) :
    Memory.read (State.initial image).mem i.val = image[i] := by
  rw [State.initial, read_writeBytes]
  simp

/-! ## Executing with an operand that is no register index -/

/-- A register operand above 7 is the fault of the instruction, the first one if there are two
(30_encoding.md R58, steps 5 and 6). -/
theorem exec_of_illegalOperand {i : Instr} {x : Byte} (h : i.illegalOperand = some x) (s : State) :
    exec i s = .next (s.raise (.registerIndex x)) := by
  cases i with
  | nop | hlt | ret => cases h
  | call a | jmp a | jeq a | jne a | push a | pop a | pra a | prn a | ldi a b | ld a b | inc a | dec a
    | not a b =>
    obtain ⟨ha, rfl⟩ := illegalOperand_of_one rfl h
    have hc := checkReg_of_lt ha
    simp only [exec, execCall, execJmp, execJeq, execJne, jumpIf, execPush, execPop, execPra, execPrn,
      emitReg, execLdi, execLd, loadByte, execInc, execDec, execNot, aluUnary, hc, error_bind,
      State.complete_error]
  | st a b | add a b | sub a b | mul a b | and a b | or a b | xor a b | shl a b | shr a b | cmp a b =>
    simp only [exec, execSt, execAdd, execSub, execMul, execAnd, execOr, execXor, execShl, execShr,
      execCmp, aluBinary]
    rcases illegalOperand_of_two rfl h with ⟨ha, rfl⟩ | ⟨ha, hb, rfl⟩
    · simp only [checkReg_of_lt ha, error_bind, State.complete_error]
    · have hc := checkReg_of_eq (a := a) (r := ⟨a.toNat, by omega⟩) rfl
      simp only [hc, checkReg_of_lt hb, ok_bind, error_bind, State.complete_error]

/-! ## What an instruction does to the part of the state it does not read -/

/-- FL, RUN, CAUSE and OUT: the part of the state no instruction reads, but for FL by JEQ and JNE
(10_state.md R17, R18, R22). -/
structure Control where
  fl : Byte
  run : RunState
  cause : Cause
  out : List OutEvent

def State.withControl (s : State) (k : Control) : State :=
  { s with fl := k.fl, run := k.run, cause := k.cause, out := k.out }

/-- `k` has the FL of `s`, or `i` is neither JEQ nor JNE, the two readers of FL (10_state.md R17). -/
def SameFlIfRead (i : Instr) (s : State) (k : Control) : Prop :=
  k.fl = s.fl ∨ ∀ a, i ≠ .jeq a ∧ i ≠ .jne a

/-- What an instruction does: the registers, PC and memory it leaves, and of FL, RUN, CAUSE and OUT
only what it writes. -/
structure Change where
  regs : Regs
  pc : Byte
  mem : Memory
  fl : Option Byte := none
  run : Option RunState := none
  cause : Option Cause := none
  event : Option OutEvent := none

def Change.apply (c : Change) (s : State) : State :=
  { regs := c.regs, pc := c.pc, mem := c.mem, fl := c.fl.getD s.fl, run := c.run.getD s.run,
    cause := c.cause.getD s.cause, out := s.out ++ c.event.toList }

/-- The change to the registers, PC and memory of `t`, and to nothing else. -/
def Change.to (t : State) : Change := { regs := t.regs, pc := t.pc, mem := t.mem }

/-- `c` is what `i` does in `s`, whatever FL, RUN, CAUSE and OUT hold, except that JEQ and JNE depend
on FL; and only PRN and PRA emit an event, of their kind. -/
structure Change.Describes (c : Change) (i : Instr) (s : State) : Prop where
  exec_withControl : ∀ k : Control, SameFlIfRead i s k →
    exec i (s.withControl k) = .next (c.apply (s.withControl k))
  event_kind : ∀ e, c.event = some e →
    ∃ a, (i = .prn a ∧ e.kind = .prn) ∨ (i = .pra a ∧ e.kind = .pra)

variable {i : Instr} {s t : State} {c : Change}

/-- A description of `i` in `s` gives the next state of `s` itself. -/
theorem Change.Describes.apply_eq (hc : c.Describes i s) (h : exec i s = .next t) : c.apply s = t :=
  Host.Outcome.next.inj ((hc.exec_withControl ⟨s.fl, s.run, s.cause, s.out⟩ (.inl rfl)).symm.trans h)

/-- An instruction that carries FL, RUN, CAUSE and OUT through is described by the rest of its next
state. -/
theorem describes_to {i : Instr} {s : State} (t : State)
    (h : ∀ k : Control, SameFlIfRead i s k →
      exec i (s.withControl k) = .next (t.withControl k)) :
    ∃ c : Change, c.Describes i s := by
  refine ⟨.to t, fun k hk => (h k hk).trans (congrArg _ ?_), nofun⟩
  simp [Change.apply, Change.to, State.withControl]

/-- A fault is described by the RUN and CAUSE it sets. -/
theorem describes_raise {e : Trap} (h : ∀ s, exec i s = .next (s.raise e)) :
    ∃ c : Change, c.Describes i s := by
  refine ⟨{ Change.to s with run := some .fatalError, cause := some e.cause },
    fun k _ => (h _).trans (congrArg _ ?_), nofun⟩
  simp [Change.apply, Change.to, State.withControl, State.raise]

/-- A jump whose test has come out the same for every FL. -/
theorem describes_jumpIf {taken : Bool} {a : Byte} {ra : RegId} (ha : a.toNat = ra.val)
    (h : ∀ k : Control, SameFlIfRead i s k →
      exec i (s.withControl k) = jumpIf taken a (s.withControl k)) :
    ∃ c : Change, c.Describes i s := by
  refine describes_to (if taken then s.setPc (s.reg ra) else s.advance 2) fun k hk =>
    (h k hk).trans ((jumpIf_ok ha).trans ?_)
  cases taken <;> rfl

/-- The ALU has a result for every opcode of its set (40_alu.md R70). -/
theorem alu_of_mem {op : Byte} (h : op ∈ aluOpcodes) (A B : Byte) :
    alu op A B = .ok (trunc8 ((aluResult op A B).getD 0)) := by
  simp only [aluOpcodes, List.mem_cons, List.not_mem_nil, or_false] at h
  rcases h with rfl | rfl | rfl | rfl | rfl | rfl | rfl | rfl | rfl | rfl | rfl <;> rfl

theorem describes_aluBinary {op a b : Byte} {ra rb : RegId} (ha : a.toNat = ra.val)
    (hb : b.toNat = rb.val) (hop : op ∈ aluOpcodes) (h : exec i = aluBinary op a b) :
    ∃ c : Change, c.Describes i s :=
  describes_to ((s.setReg ra (trunc8 ((aluResult op (s.reg ra) (s.reg rb)).getD 0))).advance 3)
    fun _ _ => (congrFun h _).trans (aluBinary_ok ha hb (alu_of_mem hop _ _))

theorem describes_aluUnary {op a : Byte} {n : Nat} {ra : RegId} (ha : a.toNat = ra.val)
    (hop : op ∈ aluOpcodes) (h : exec i = aluUnary op a n) : ∃ c : Change, c.Describes i s :=
  describes_to ((s.setReg ra (trunc8 ((aluResult op (s.reg ra) 0).getD 0))).advance n)
    fun _ _ => (congrFun h _).trans (aluUnary_ok ha (alu_of_mem hop _ _))

/-- PRN and PRA append the event of their kind. -/
theorem describes_emitReg {kind : OutKind} {a : Byte} {ra : RegId} (ha : a.toNat = ra.val)
    (h : exec i = emitReg kind a) (hk : (i = .prn a ∧ kind = .prn) ∨ (i = .pra a ∧ kind = .pra)) :
    ∃ c : Change, c.Describes i s := by
  refine ⟨{ Change.to (s.advance 2) with event := some ⟨kind, s.reg ra⟩ },
    fun k _ => (congrFun h _).trans (emitReg_ok ha), fun e he => ⟨a, ?_⟩⟩
  cases he
  exact hk

/-- Every instruction has a description, in every state. -/
theorem exec_described (i : Instr) (s : State) : ∃ c : Change, c.Describes i s := by
  cases hill : i.illegalOperand with
  | some x => exact describes_raise (exec_of_illegalOperand hill)
  | none =>
    have hwf := Instr.illegalOperand_eq_none.mp hill
    cases i with
    | nop => exact describes_to (s.advance 1) fun _ _ => rfl
    | hlt =>
      refine ⟨{ Change.to (s.advance 1) with run := some .halted }, fun k _ => ?_, nofun⟩
      simp [exec, execHlt, State.withControl, Change.apply, Change.to, State.setRun, State.advance,
        State.setPc]
    | ret =>
      exact describes_to (s.postIncrement.setPc (Memory.read s.mem (s.reg RegId.sp).toNat))
        fun _ _ => execRet_eq
    | call a =>
      obtain ⟨ra, ha⟩ := exists_reg hwf List.mem_cons_self
      exact describes_to
        (State.setPc { s.preDecrement with
          mem := Memory.write s.mem (s.preDecrement.reg RegId.sp).toNat (trunc8 (s.pc.toNat + 2)) }
          (s.preDecrement.reg ra))
        fun _ _ => execCall_ok ha
    | push a =>
      obtain ⟨ra, ha⟩ := exists_reg hwf List.mem_cons_self
      exact describes_to
        (State.advance { s.preDecrement with
          mem := Memory.write s.mem (s.preDecrement.reg RegId.sp).toNat (s.preDecrement.reg ra) } 2)
        fun _ _ => execPush_ok ha
    | pop a =>
      obtain ⟨ra, ha⟩ := exists_reg hwf List.mem_cons_self
      exact describes_to
        ((s.setReg ra (Memory.read s.mem (s.reg RegId.sp).toNat)).postIncrement.advance 2)
        fun _ _ => execPop_ok ha
    | jmp a =>
      obtain ⟨ra, ha⟩ := exists_reg hwf List.mem_cons_self
      exact describes_jumpIf ha fun _ _ => rfl
    | jeq a =>
      obtain ⟨ra, ha⟩ := exists_reg hwf List.mem_cons_self
      refine describes_jumpIf (taken := jeqTaken Config.flags s.fl) ha fun k hk => ?_
      have hfl : k.fl = s.fl := hk.resolve_right fun h => (h a).1 rfl
      rw [← hfl]; rfl
    | jne a =>
      obtain ⟨ra, ha⟩ := exists_reg hwf List.mem_cons_self
      refine describes_jumpIf (taken := jneTaken Config.flags s.fl) ha fun k hk => ?_
      have hfl : k.fl = s.fl := hk.resolve_right fun h => (h a).2 rfl
      rw [← hfl]; rfl
    | pra a =>
      obtain ⟨ra, ha⟩ := exists_reg hwf List.mem_cons_self
      exact describes_emitReg ha rfl (.inr ⟨rfl, rfl⟩)
    | prn a =>
      obtain ⟨ra, ha⟩ := exists_reg hwf List.mem_cons_self
      exact describes_emitReg ha rfl (.inl ⟨rfl, rfl⟩)
    | ldi a b | ld a b =>
      obtain ⟨ra, ha⟩ := exists_reg hwf List.mem_cons_self
      exact describes_to ((s.setReg ra b).advance 3) fun _ _ => loadByte_ok ha
    | inc a | dec a | not a b =>
      obtain ⟨ra, ha⟩ := exists_reg hwf List.mem_cons_self
      exact describes_aluUnary ha (by decide) rfl
    | st a b =>
      obtain ⟨ra, rb, ha, hb⟩ := exists_reg_pair hwf rfl
      exact describes_to ((s.setReg ra (s.reg rb)).advance 3) fun _ _ => execSt_ok ha hb
    | add a b | sub a b | mul a b | and a b | or a b | xor a b | shl a b | shr a b =>
      obtain ⟨ra, rb, ha, hb⟩ := exists_reg_pair hwf rfl
      exact describes_aluBinary ha hb (by decide) rfl
    | cmp a b =>
      obtain ⟨ra, rb, ha, hb⟩ := exists_reg_pair hwf rfl
      refine ⟨{ Change.to (s.advance 3) with
        fl := some (compareFlag Config.flags (s.reg ra) (s.reg rb)) }, fun k _ =>
          (execCmp_ok ha hb).trans (congrArg _ ?_), nofun⟩
      simp [State.withControl, Change.apply, Change.to, State.setFl, State.advance, State.setPc,
        State.reg]

/-- No instruction reads RUN (10_state.md R18). -/
theorem exec_setRun (i : Instr) (s t : State) (r : RunState) (h : exec i s = .next t) :
    ∃ u, exec i (s.setRun r) = .next u ∧ u.setRun t.run = t := by
  obtain ⟨c, hc⟩ := exec_described i s
  obtain rfl := hc.apply_eq h
  exact ⟨_, hc.exec_withControl ⟨s.fl, r, s.cause, s.out⟩ (.inl rfl), rfl⟩

section Step

variable {s : State}

/-! ## The fault of a step, as a trap (30_encoding.md R58) -/

/-- What the first failing check of R58 raises, read off the decoder. -/
def fetchTrap (s : State) : Option Trap :=
  match decode (fetchBytes s) with
  | .error e => some (decodeTrap s.pc e)
  | .ok (i, _) => i.illegalOperand.map .registerIndex

theorem fetchTrap_of_decode_error {e : DecodeError} (h : decode (fetchBytes s) = .error e) :
    fetchTrap s = some (decodeTrap s.pc e) := by
  simp only [fetchTrap, h]

theorem fetchTrap_of_decode_ok {i : Instr} {rest : List Byte}
    (h : decode (fetchBytes s) = .ok (i, rest)) :
    fetchTrap s = i.illegalOperand.map .registerIndex := by
  simp only [fetchTrap, h]

/-- A trap as `decodeFault` and `faulted` write it. -/
def Trap.report : Trap → CauseCode × Nat
  | .unknownOpcode op => (.unknownOpcode, op.toNat)
  | .memoryRange addr => (.memoryRange, addr)
  | .registerIndex i => (.registerIndex, i.toNat)
  | .aluInvalidOp op => (.aluInvalidOp, op.toNat)

theorem raise_eq_faulted (s : State) (t : Trap) :
    s.raise t = faulted s t.report.1 t.report.2 := by
  cases t with
  | unknownOpcode op => exact raise_unknownOpcode s op
  | memoryRange addr => exact raise_memoryRange s addr
  | registerIndex i => exact raise_registerIndex s i
  | aluInvalidOp op => simp only [State.raise, faulted, Trap.cause, Trap.report, zeroExtend_eq_ofNat]

theorem fetchBytes_two (h : s.pc.toNat ≤ 254) :
    ∃ rest, fetchBytes s =
      Memory.read s.mem s.pc.toNat :: Memory.read s.mem (s.pc.toNat + 1) :: rest :=
  ⟨_, by rw [fetchBytes, fetchFrom_succ s 2 (by omega), fetchFrom_succ s 1 (by omega)]⟩

/-! ### `decodeFault`, one opcode list at a time -/

theorem decodeFault_oneByte (h : Memory.read s.mem s.pc.toNat ∈ oneByteOpcodes) :
    decodeFault s = none := by
  simp [decodeFault, h]

theorem decodeFault_twoByte (h : Memory.read s.mem s.pc.toNat ∈ twoByteOpcodes) :
    decodeFault s =
      if 255 < s.pc.toNat + 1 then some (.memoryRange, s.pc.toNat + 1)
      else if 7 < (Memory.read s.mem (s.pc.toNat + 1)).toNat then
        some (.registerIndex, (Memory.read s.mem (s.pc.toNat + 1)).toNat)
      else none := by
  have hdisj : ∀ op ∈ twoByteOpcodes,
      op ∉ oneByteOpcodes ∧ op ∉ threeByteOpcodes ∧ op ∉ regRegOpcodes := by decide
  obtain ⟨h1, h3, hrr⟩ := hdisj _ h
  simp [decodeFault, h, h1, h3, hrr]

theorem decodeFault_threeByte (h : Memory.read s.mem s.pc.toNat ∈ threeByteOpcodes) :
    decodeFault s =
      if 255 < s.pc.toNat + 1 then some (.memoryRange, s.pc.toNat + 1)
      else if 255 < s.pc.toNat + 2 then some (.memoryRange, s.pc.toNat + 2)
      else if 7 < (Memory.read s.mem (s.pc.toNat + 1)).toNat then
        some (.registerIndex, (Memory.read s.mem (s.pc.toNat + 1)).toNat)
      else if Memory.read s.mem s.pc.toNat ∈ regRegOpcodes ∧
          7 < (Memory.read s.mem (s.pc.toNat + 2)).toNat then
        some (.registerIndex, (Memory.read s.mem (s.pc.toNat + 2)).toNat)
      else none := by
  have hdisj : ∀ op ∈ threeByteOpcodes, op ∉ oneByteOpcodes := by decide
  simp [decodeFault, h, hdisj _ h]

/-! ### The first failing check is the decoder's error or the first illegal operand -/

theorem decodeFault_of_f1 {mk : Byte → Instr}
    (hf : formatOf (Memory.read s.mem s.pc.toNat) = some (.f1 mk)) :
    decodeFault s = (fetchTrap s).map Trap.report := by
  obtain ⟨hop, hmk⟩ := fits_of_formatOf hf
  rw [decodeFault_twoByte hop]
  by_cases hpc : s.pc.toNat ≤ 254
  · obtain ⟨rest, hb⟩ := fetchBytes_two hpc
    rw [fetchTrap_of_decode_ok (hb ▸ decode_f1 hf _ rest), if_neg (by omega)]
    by_cases ha : 7 < (Memory.read s.mem (s.pc.toNat + 1)).toNat <;>
      simp [Instr.illegalOperand, (hmk _).2, ha, Trap.report]
  · have hpc : s.pc.toNat = 255 := by omega
    rw [fetchTrap_of_decode_error (fetchBytes_255 hpc ▸ decode_f1_missing hf), if_pos (by omega)]
    rfl

theorem decodeFault_of_f2 {mk : Byte → Byte → Instr}
    (hf : formatOf (Memory.read s.mem s.pc.toNat) = some (.f2 mk)) :
    decodeFault s = (fetchTrap s).map Trap.report := by
  obtain ⟨-, hops⟩ := fits_of_formatOf hf
  have hop : Memory.read s.mem s.pc.toNat ∈ threeByteOpcodes :=
    List.mem_append.mpr (hops.imp And.left And.left)
  rw [decodeFault_threeByte hop]
  rcases (by omega : s.pc.toNat ≤ 253 ∨ s.pc.toNat = 254 ∨ s.pc.toNat = 255) with hpc | hpc | hpc
  · rw [fetchTrap_of_decode_ok (fetchBytes_full hpc ▸ decode_f2 hf _ _ []), if_neg (by omega),
      if_neg (by omega)]
    by_cases ha : 7 < (Memory.read s.mem (s.pc.toNat + 1)).toNat
    · rcases hops with ⟨hrr, hregs⟩ | ⟨hrb, hregs⟩ <;>
        simp [Instr.illegalOperand, hregs, ha, Trap.report]
    · rcases hops with ⟨hrr, hregs⟩ | ⟨hrb, hregs⟩
      · by_cases hb : 7 < (Memory.read s.mem (s.pc.toNat + 2)).toNat <;>
          simp [Instr.illegalOperand, hregs, ha, hb, hrr, Trap.report]
      · have hdisj : ∀ op ∈ regByteOpcodes, op ∉ regRegOpcodes := by decide
        simp [Instr.illegalOperand, hregs, ha, hdisj _ hrb]
  · rw [fetchTrap_of_decode_error (fetchBytes_254 hpc ▸ decode_f2_missing_b hf _),
      if_neg (by omega), if_pos (by omega)]
    rfl
  · rw [fetchTrap_of_decode_error (fetchBytes_255 hpc ▸ decode_f2_missing_a hf), if_pos (by omega)]
    rfl

/-- `decodeFault`, written out from R55 and R58, agrees with the decoder and the register checks. -/
theorem decodeFault_eq_fetchTrap (s : State) : decodeFault s = (fetchTrap s).map Trap.report := by
  obtain ⟨rest, hb⟩ := fetchBytes_cons s
  cases hf : formatOf (Memory.read s.mem s.pc.toNat) with
  | none =>
    rw [fetchTrap_of_decode_error (hb ▸ decode_unknown hf rest)]
    exact if_pos (formatOf_eq_none_iff.mp hf)
  | some f =>
    cases f with
    | f0 i =>
      obtain ⟨hop, -, hregs⟩ := fits_of_formatOf hf
      rw [fetchTrap_of_decode_ok (hb ▸ decode_f0 hf rest), decodeFault_oneByte hop]
      simp [Instr.illegalOperand, hregs]
    | f1 mk => exact decodeFault_of_f1 hf
    | f2 mk => exact decodeFault_of_f2 hf

/-! ## The step of a running machine (10_state.md R18, 41_dispatch_and_loop.md R91) -/

theorem step_of_decode_ok {i : Instr} {rest : List Byte} (hrun : s.run = .running)
    (h : decode (fetchBytes s) = .ok (i, rest)) : step s = exec i s := by
  simp only [step, hrun, fetchDecode, h]

theorem step_next_iff : (∃ t, step s = .next t) ↔ s.run = .running := by
  refine ⟨fun ⟨t, h⟩ => (step_cases h).1, fun hrun => ?_⟩
  cases hd : decode (fetchBytes s) with
  | error e => exact ⟨_, step_of_decode_error hrun hd⟩
  | ok p => exact step_of_decode_ok hrun hd ▸ exec_next p.1 s

theorem step_of_fetchTrap {e : Trap} (hrun : s.run = .running) (h : fetchTrap s = some e) :
    step s = .next (s.raise e) := by
  cases hd : decode (fetchBytes s) with
  | error d =>
    obtain rfl := Option.some.inj ((fetchTrap_of_decode_error hd).symm.trans h)
    exact step_of_decode_error hrun hd
  | ok p =>
    obtain ⟨x, hx, rfl⟩ := Option.map_eq_some_iff.mp ((fetchTrap_of_decode_ok hd).symm.trans h)
    exact (step_of_decode_ok hrun hd).trans (exec_of_illegalOperand hx s)

/-- Where no check fails, a well-formed instruction has been decoded. -/
theorem decode_of_fetchTrap_none (h : fetchTrap s = none) :
    ∃ i rest, decode (fetchBytes s) = .ok (i, rest) ∧ i.WellFormed := by
  cases hd : decode (fetchBytes s) with
  | error d => cases (fetchTrap_of_decode_error hd).symm.trans h
  | ok p =>
    have hmap := (fetchTrap_of_decode_ok hd).symm.trans h
    exact ⟨p.1, p.2, rfl, Instr.illegalOperand_eq_none.mp (Option.map_eq_none_iff.mp hmap)⟩

/-- What a step does to RUN: a failing check ends the run in FatalError; else a well-formed
instruction is executed, and RUN becomes Halted if that is HLT and stays Running if not. -/
theorem step_run_cases {t : State} (h : step s = .next t) :
    (∃ e, fetchTrap s = some e ∧ t = s.raise e) ∨
    (fetchTrap s = none ∧ ∃ i rest, decode (fetchBytes s) = .ok (i, rest) ∧ exec i s = .next t ∧
      t.run = if i = .hlt then .halted else .running) := by
  have hrun := (step_cases h).1
  cases hft : fetchTrap s with
  | some e =>
    exact .inl ⟨e, rfl, Host.Outcome.next.inj (h.symm.trans (step_of_fetchTrap hrun hft))⟩
  | none =>
    obtain ⟨i, rest, hd, hwf⟩ := decode_of_fetchTrap_none hft
    have hexec := (step_of_decode_ok hrun hd).symm.trans h
    refine .inr ⟨rfl, i, rest, hd, hexec, ?_⟩
    by_cases hi : i = .hlt
    · subst hi
      cases hexec
      rfl
    · rw [if_neg hi]
      rcases exec_cases hexec with ⟨a, ha, hlt, -⟩ | ⟨-, -, hkept | ⟨hhlt, -⟩, -⟩
      · exact absurd (hwf a ha) (Nat.not_le_of_lt hlt)
      · exact hkept.trans hrun
      · exact absurd hhlt hi

/-- HLT is the instruction with the byte 0x01 (30_encoding.md R55). -/
theorem eq_hlt_iff_of_decode {i : Instr} {rest : List Byte}
    (h : decode (fetchBytes s) = .ok (i, rest)) :
    i = .hlt ↔ Memory.read s.mem s.pc.toNat = 0x01 := by
  obtain ⟨tail, hb⟩ := fetchBytes_cons s
  rw [hb] at h
  constructor
  · rintro rfl
    exact (List.cons.inj (eq_encode_append_of_decode h)).1
  · intro hop
    rw [hop, decode_f0 (i := .hlt) rfl] at h
    cases h
    rfl

theorem step_run_eq_halted_iff {t : State} (h : step s = .next t) :
    t.run = .halted ↔ Memory.read s.mem s.pc.toNat = 0x01 := by
  rcases step_run_cases h with ⟨e, hft, rfl⟩ | ⟨-, i, rest, hd, -, hrun⟩
  · refine iff_of_false (by simp) fun hop => ?_
    obtain ⟨tail, hb⟩ := fetchBytes_cons s
    have hd : decode (fetchBytes s) = .ok (.hlt, tail) := by rw [hb, hop]; exact decode_f0 rfl tail
    cases (fetchTrap_of_decode_ok hd).symm.trans hft
  · rw [hrun, ← eq_hlt_iff_of_decode hd]
    split <;> simp [*]

theorem step_run_eq_fatalError_iff {t : State} (h : step s = .next t) :
    t.run = .fatalError ↔ (decodeFault s).isSome := by
  rw [decodeFault_eq_fetchTrap, Option.isSome_map]
  rcases step_run_cases h with ⟨e, hft, rfl⟩ | ⟨hft, i, -, -, -, hrun⟩
  · simp [hft]
  · rw [hrun, hft]
    split <;> simp

/-- A run that has ended reaches nothing else (10_state.md R18). -/
theorem reaches_of_not_running {t : State} (h : Reaches s t) (hs : s.run ≠ .running) : t = s :=
  reaches_keeps (P := (· = s)) (fun _ _ hu hstep => absurd (hu ▸ (step_cases hstep).1) hs) h rfl

end Step

/-! ## The obligations of 10_state.md -/

/-- Settles O4, by `State.reg_setReg`. -/
theorem registerReadAfterWrite : Obligations.RegisterReadAfterWrite := by
  intro s r q v
  exact ⟨(s.reg_setReg r r v).trans (if_pos rfl), fun hq => (s.reg_setReg r q v).trans (if_neg hq),
    rfl⟩

/-- Settles O2: the memory clause is `read_initial`, the rest are the fields of `State.reset`. -/
theorem initialStateOfEveryImage : Obligations.InitialStateOfEveryImage := by
  intro image
  have hregs : ∀ r : RegId, State.reset.reg r = if r = RegId.sp then 0xF4 else 0x00 := by decide
  exact ⟨hregs, rfl, rfl, rfl, rfl, rfl, rfl, read_initial image, rfl⟩

/-- Settles O12: a step does to RUN what `step_run_cases` lists, a failing check is one of
`decodeFault` by `decodeFault_eq_fetchTrap`, and that RUN is not read is in `exec_described`. -/
theorem runStateChangesOnlyByHltOrFault : Obligations.RunStateChangesOnlyByHltOrFault :=
  ⟨fun _ => rfl,
    fun _ => ⟨step_next_iff, fun _ h => ⟨step_run_eq_halted_iff h, step_run_eq_fatalError_iff h⟩,
      fun _ => reaches_of_not_running⟩,
    exec_setRun⟩

/-- Settles O51: what an instruction can do to FL is in `exec_cases`, what CMP does in `execCmp_ok`, and
that FL is not read in `exec_described`. -/
theorem flagsWrittenOnlyByCmp : Obligations.FlagsWrittenOnlyByCmp := by
  refine ⟨fun i s t h hfl => ?_, fun s t a b ha hb h => ?_, fun i s t v hi h => ?_⟩
  · rcases exec_cases h with ⟨a, -, -, rfl⟩ | ⟨-, -, -, hkept | ⟨hcmp, -⟩, -⟩
    · exact absurd rfl hfl
    · exact absurd hkept hfl
    · exact hcmp
  · have hexec : exec (.cmp a b) s = _ :=
      execCmp_ok (ra := ⟨a.toNat, Nat.lt_succ_of_le ha⟩) (rb := ⟨b.toNat, Nat.lt_succ_of_le hb⟩)
        rfl rfl
    obtain rfl := Host.Outcome.next.inj (hexec.symm.trans h)
    exact compareFlag_cases ..
  · obtain ⟨c, hc⟩ := exec_described i s
    obtain rfl := hc.apply_eq h
    exact ⟨_, hc.exec_withControl ⟨v, s.run, s.cause, s.out⟩ (.inr hi), rfl⟩

/-- Settles O54: the events are those of the instruction's description. -/
theorem outputOnlyGrows : Obligations.OutputOnlyGrows := by
  intro i s t h
  obtain ⟨c, hc⟩ := exec_described i s
  obtain rfl := hc.apply_eq h
  refine ⟨c.event.toList, rfl, fun hne => ?_, fun earlier =>
    hc.exec_withControl ⟨s.fl, s.run, s.cause, earlier⟩ (.inl rfl)⟩
  cases he : c.event with
  | none => exact absurd (congrArg Option.toList he) hne
  | some e =>
    obtain ⟨kind, v⟩ := e
    obtain ⟨a, ⟨hi, rfl⟩ | ⟨hi, rfl⟩⟩ := hc.event_kind _ he
    · exact ⟨a, v, .inl ⟨hi, rfl⟩⟩
    · exact ⟨a, v, .inr ⟨hi, rfl⟩⟩

end Sys2Proof.Machine

namespace Sys2Proof.Machine

/-! ## Memory access at every address (20_memory.md R31, R32)

At a byte address the accesses cannot fault (`State.memRead_byte`, `State.memWrite_byte`); the model's
addresses are any natural numbers. -/

theorem State.memRead_of_le (s : State) {addr : Nat} (h : addr ≤ 255) :
    s.memRead addr = .ok (Memory.read s.mem addr) :=
  if_pos h

theorem State.memRead_of_gt (s : State) {addr : Nat} (h : 255 < addr) :
    s.memRead addr = .error (.memoryRange addr) :=
  if_neg (Nat.not_le_of_lt h)

theorem State.memWrite_of_le (s : State) {addr : Nat} (v : Byte) (h : addr ≤ 255) :
    s.memWrite addr v = .ok { s with mem := Memory.write s.mem addr v } :=
  if_pos h

theorem State.memWrite_of_gt (s : State) {addr : Nat} (v : Byte) (h : 255 < addr) :
    s.memWrite addr v = .error (.memoryRange addr) :=
  if_neg (Nat.not_le_of_lt h)

/-! ## The obligation of 20_memory.md -/

/-- Settles O5: an address in range writes the one cell that `Memory.read_write` says, and any other
faults. -/
theorem memoryReadAfterWrite : Obligations.MemoryReadAfterWrite := by
  intro s addr v
  refine ⟨fun hin => ⟨s.memRead_of_le hin, ?written⟩, fun hout =>
    ⟨s.memRead_of_gt hout, s.memWrite_of_gt v hout⟩⟩
  case written =>
    exact ⟨_, s.memWrite_of_le v hin, rfl, fun x => Memory.read_write s.mem addr x v⟩

end Sys2Proof.Machine

namespace Sys2Proof

open Machine

/-! ## The unknown opcodes (30_encoding.md R57) -/

/-- The decoder answers UnknownOpcode for no other reason than a byte without a row. -/
theorem decode_eq_unknownOpcode_iff {op : Byte} {rest : List Byte} :
    decode (op :: rest) = .error (.unknownOpcode op) ↔ formatOf op = none := by
  refine ⟨fun h => ?_, fun h => decode_unknown h rest⟩
  cases hf : formatOf op with
  | none => rfl
  | some f =>
    cases f with
    | f0 i => cases (decode_f0 hf rest).symm.trans h
    | f1 mk =>
      cases rest with
      | nil => cases (decode_f1_missing hf).symm.trans h
      | cons a rest => cases (decode_f1 hf a rest).symm.trans h
    | f2 mk =>
      match rest with
      | [] => cases (decode_f2_missing_a hf).symm.trans h
      | [a] => cases (decode_f2_missing_b hf a).symm.trans h
      | a :: b :: rest => cases (decode_f2 hf a b rest).symm.trans h

/-- The bytes without a row are those of the ranges: the numbers between the table's 26 opcodes. -/
theorem formatOf_eq_none_iff_unknownByte {op : Byte} :
    formatOf op = none ↔ UnknownByte op.toNat := by
  have := op.isLt
  rw [formatOf_eq_none_iff]
  simp only [oneByteOpcodes, twoByteOpcodes, threeByteOpcodes, regRegOpcodes, regByteOpcodes,
    List.cons_append, List.nil_append, List.mem_cons, List.not_mem_nil, or_false, BitVec.toNat_eq,
    BitVec.ofNat_eq_ofNat, BitVec.toNat_ofNat, UnknownByte]
  omega

end Sys2Proof

namespace Sys2Proof.Machine

/-! ## The fetched bytes in memory (30_encoding.md R51, R52) -/

theorem fetchFrom_getElem (s : State) (n addr k : Nat) (h : k < (fetchFrom s n addr).length) :
    addr + k ≤ 255 ∧ (fetchFrom s n addr)[k] = Memory.read s.mem (addr + k) := by
  induction n generalizing addr k with
  | zero => cases h
  | succ n ih =>
    by_cases haddr : addr ≤ 255
    · simp only [fetchFrom_succ s n haddr] at h ⊢
      cases k with
      | zero => exact ⟨haddr, rfl⟩
      | succ k =>
        rw [show addr + (k + 1) = addr + 1 + k by omega]
        exact ih (addr + 1) k (Nat.lt_of_succ_lt_succ h)
    · simp only [fetchFrom_above s (n + 1) (Nat.lt_of_not_le haddr)] at h
      cases h

/-- The bytes of a decoded instruction are in memory, from PC upward. -/
theorem encode_at_pc_of_decode {s : State} {i : Instr} {rest : List Byte}
    (hd : decode (fetchBytes s) = .ok (i, rest)) (k : Nat) (h : k < (encode i).length) :
    s.pc.toNat + k ≤ 255 ∧ Memory.read s.mem (s.pc.toNat + k) = (encode i)[k] := by
  have hbytes : fetchFrom s 3 s.pc.toNat = encode i ++ rest := eq_encode_append_of_decode hd
  have hk : k < (fetchFrom s 3 s.pc.toNat).length := by
    rw [hbytes, List.length_append]
    omega
  obtain ⟨hle, hread⟩ := fetchFrom_getElem s 3 s.pc.toNat k hk
  refine ⟨hle, hread.symm.trans ?_⟩
  simp only [hbytes, List.getElem_append_left h]

/-! ## Executing a well-formed instruction raises nothing -/

theorem exec_of_wellFormed {i : Instr} {s t : State} (hwf : i.WellFormed) (hrun : s.run = .running)
    (h : exec i s = .next t) : t.run ≠ .fatalError ∧ t.cause = s.cause := by
  rcases exec_cases h with ⟨a, ha, hlt, -⟩ | ⟨-, hcause, hkept | ⟨-, hhalt⟩, -⟩
  · exact absurd (hwf a ha) (Nat.not_le_of_lt hlt)
  · exact ⟨by simp [hkept, hrun], hcause⟩
  · exact ⟨by simp [hhalt], hcause⟩

/-! ## The obligations of 30_encoding.md -/

/-- Settles O8: the decoder answers UnknownOpcode exactly for the bytes without a row, which are those
of the ranges, and the step takes the decoder's error as a fault. -/
theorem unknownOpcodesAreTheListedRanges : Obligations.UnknownOpcodesAreTheListedRanges := by
  refine ⟨fun op rest => decode_eq_unknownOpcode_iff.trans formatOf_eq_none_iff_unknownByte,
    fun s hrun hop => ?_⟩
  obtain ⟨rest, hb⟩ := fetchBytes_cons s
  have hd := hb ▸ decode_unknown (formatOf_eq_none_iff_unknownByte.mpr hop) rest
  rw [step_of_decode_error hrun hd, decodeTrap, raise_unknownOpcode]

/-- Settles O11: `decodeFault` is the fault of the decoder and the register checks by
`decodeFault_eq_fetchTrap`, and where there is none a well-formed instruction has been decoded. -/
theorem stepRaisesFirstFaultInDecodeOrder : Obligations.StepRaisesFirstFaultInDecodeOrder := by
  intro s hrun
  rw [decodeFault_eq_fetchTrap]
  cases hft : fetchTrap s with
  | some e =>
    exact (step_of_fetchTrap hrun hft).trans (congrArg Host.Outcome.next (raise_eq_faulted s e))
  | none =>
    obtain ⟨i, rest, hd, hwf⟩ := decode_of_fetchTrap_none hft
    obtain ⟨t, hexec⟩ := exec_next i s
    exact ⟨i, t, hwf, encode_at_pc_of_decode hd, step_of_decode_ok hrun hd, hexec,
      exec_of_wellFormed hwf hrun hexec⟩

end Sys2Proof.Machine

namespace Sys2Proof.Machine

/-! ## The shape of an instruction's rule, from its row of the table (30_encoding.md R52, R53, R55)

The encoding and the faults of a rule follow from the row of its opcode and the register operands of
its instructions; what is left of each rule is the effect on legal operands. -/

/-- The operand of a two-byte instruction at 255 lies at 256. -/
theorem straddleFaults_of_f1 {op : Byte} {mk : Byte → Instr} (hf : formatOf op = some (.f1 mk)) :
    StraddleFaults op 255 := by
  intro s hrun hop hpc
  have hlast : s.pc.toNat = 255 := by have := s.pc.isLt; omega
  have hd : decode (fetchBytes s) = .error (.missingOperand 1) := by
    rw [fetchBytes_255 hlast, hop, decode_f1_missing hf]
  rw [step_of_decode_error hrun hd, decodeTrap, hlast, raise_memoryRange]

/-- The first operand byte of a three-byte instruction that is not in memory lies at 256: `b` with the
opcode at 254, `a` with the opcode at 255. -/
theorem straddleFaults_of_f2 {op : Byte} {mk : Byte → Byte → Instr}
    (hf : formatOf op = some (.f2 mk)) : StraddleFaults op 254 := by
  intro s hrun hop hpc
  rcases (by have := s.pc.isLt; omega : s.pc.toNat = 254 ∨ s.pc.toNat = 255) with hlast | hlast
  · have hd : decode (fetchBytes s) = .error (.missingOperand 2) := by
      rw [fetchBytes_254 hlast, hop, decode_f2_missing_b hf]
    rw [step_of_decode_error hrun hd, decodeTrap, hlast, raise_memoryRange]
  · have hd : decode (fetchBytes s) = .error (.missingOperand 1) := by
      rw [fetchBytes_255 hlast, hop, decode_f2_missing_a hf]
    rw [step_of_decode_error hrun hd, decodeTrap, hlast, raise_memoryRange]

/-- An operand `a` above 7 is raised, whatever the operand after it. -/
theorem exec_of_illegal_first {i : Instr} {a : Byte} {operands : List Byte}
    (hi : i.regOperands = a :: operands) (ha : 7 < a.toNat) (s : State) :
    exec i s = .next (faulted s .registerIndex a.toNat) := by
  have hill : i.illegalOperand = some a := by simp [Instr.illegalOperand, hi, ha]
  rw [exec_of_illegalOperand hill, raise_registerIndex]

/-- An operand `b` above 7 is raised if `a` is legal. -/
theorem exec_of_illegal_second {i : Instr} {a b : Byte} (hi : i.regOperands = [a, b])
    (ha : a.toNat ≤ 7) (hb : 7 < b.toNat) (s : State) :
    exec i s = .next (faulted s .registerIndex b.toNat) := by
  have hill : i.illegalOperand = some b := by
    simp [Instr.illegalOperand, hi, hb, Nat.not_lt_of_le ha]
  rw [exec_of_illegalOperand hill, raise_registerIndex]

theorem ruleReg_of_effect {op : Byte} {mk : Byte → Instr} {effect : RegId → State → State → Prop}
    (hf : formatOf op = some (.f1 mk)) (hregs : ∀ a, (mk a).regOperands = [a])
    (heffect : ∀ s a (ra : RegId), a.toNat = ra.val → ∃ t, exec (mk a) s = .next t ∧ effect ra s t) :
    RuleReg op mk effect :=
  ⟨decode_f1 hf, heffect, fun s a ha => exec_of_illegal_first (hregs a) ha s,
    straddleFaults_of_f1 hf⟩

theorem ruleRegByte_of_effect {op : Byte} {mk : Byte → Byte → Instr}
    {effect : RegId → Byte → State → State → Prop}
    (hf : formatOf op = some (.f2 mk)) (hregs : ∀ a b, (mk a b).regOperands = [a])
    (heffect : ∀ s a b (ra : RegId), a.toNat = ra.val →
      ∃ t, exec (mk a b) s = .next t ∧ effect ra b s t) :
    RuleRegByte op mk effect :=
  ⟨decode_f2 hf, heffect, fun s a b ha => exec_of_illegal_first (hregs a b) ha s,
    straddleFaults_of_f2 hf⟩

theorem ruleRegReg_of_effect {op : Byte} {mk : Byte → Byte → Instr}
    {effect : RegId → RegId → State → State → Prop}
    (hf : formatOf op = some (.f2 mk)) (hregs : ∀ a b, (mk a b).regOperands = [a, b])
    (heffect : ∀ s a b (ra rb : RegId), a.toNat = ra.val → b.toNat = rb.val →
      ∃ t, exec (mk a b) s = .next t ∧ effect ra rb s t) :
    RuleRegReg op mk effect :=
  ⟨decode_f2 hf, heffect, fun s a b ha => exec_of_illegal_first (hregs a b) ha s,
    fun s a b ha hb => exec_of_illegal_second (hregs a b) ha hb s, straddleFaults_of_f2 hf⟩

/-! ## The effect of an ALU instruction (40_alu.md R83) -/

/-- Writing a register and moving PC on leaves the rest of the state alone. -/
theorem writesReg_setReg_advance (s : State) (r : RegId) (v : Byte) (n : Nat) :
    WritesReg r v n s ((s.setReg r v).advance n) :=
  ⟨(s.reg_setReg r r v).trans (if_pos rfl),
    fun q hq => (s.reg_setReg r q v).trans (if_neg (List.ne_of_not_mem_cons hq)),
    fun _ => rfl, rfl, ⟨rfl, rfl⟩, rfl, wrapPC_toNat (s.pc.toNat + n)⟩

/-- The rule of an instruction that gives two registers to the ALU, from the byte function the ALU
computes for its opcode. -/
theorem ruleRegReg_of_aluBinary {op : Byte} {mk : Byte → Byte → Instr} (f : Byte → Byte → Byte)
    (hf : formatOf op = some (.f2 mk)) (hregs : ∀ a b, (mk a b).regOperands = [a, b])
    (hexec : ∀ a b, exec (mk a b) = aluBinary op a b) (halu : ∀ A B, alu op A B = .ok (f A B)) :
    RuleRegReg op mk fun ra rb s t => WritesReg ra (f (s.reg ra) (s.reg rb)) 3 s t :=
  ruleRegReg_of_effect hf hregs fun s a b _ _ ha hb =>
    ⟨_, (congrFun (hexec a b) s).trans (aluBinary_ok ha hb (halu _ _)),
      writesReg_setReg_advance s _ _ 3⟩

/-- What a one-register ALU instruction of `n` bytes does on a legal operand. -/
theorem exec_writesReg_of_aluUnary {op a v : Byte} {i : Instr} {n : Nat} {s : State} {ra : RegId}
    (hexec : exec i = aluUnary op a n) (ha : a.toNat = ra.val) (halu : alu op (s.reg ra) 0 = .ok v) :
    ∃ t, exec i s = .next t ∧ WritesReg ra v n s t :=
  ⟨_, (congrFun hexec s).trans (aluUnary_ok ha halu), writesReg_setReg_advance s ra v n⟩

/-! ## The ALU's operations as the rules write them (40_alu.md R77 to R85) -/

theorem alu_and_eq_source (A B : Byte) : alu 0xA8 A B = .ok B :=
  (alu_and A B).trans (congrArg Except.ok BitVec.and_self)

theorem alu_or_eq_source (A B : Byte) : alu 0xAA A B = .ok B :=
  (alu_or A B).trans (congrArg Except.ok BitVec.or_self)

theorem alu_xor_eq_zero (A B : Byte) : alu 0xAB A B = .ok 0x00 :=
  (alu_xor A B).trans (congrArg Except.ok BitVec.xor_self)

/-- 255 is the byte of ones, so subtracting from it complements every bit. -/
theorem alu_not_eq_complement (A B : Byte) : alu 0x69 A B = .ok (~~~A) :=
  (alu_not A B).trans (congrArg Except.ok (BitVec.allOnes_sub_eq_not A))

theorem alu_shl_eq_mul_two_pow (A B : Byte) :
    alu 0xAC A B = .ok (BitVec.ofNat 8 (A.toNat * 2 ^ B.toNat)) := by
  rw [alu_shl]
  refine congrArg Except.ok (BitVec.eq_of_toNat_eq ?_)
  rw [BitVec.toNat_shiftLeft, BitVec.toNat_ofNat, Nat.shiftLeft_eq]

theorem alu_shr_eq_div_two_pow (A B : Byte) :
    alu 0xAD A B = .ok (BitVec.ofNat 8 (A.toNat / 2 ^ B.toNat)) := by
  have hlt : A.toNat / 2 ^ B.toNat < 2 ^ 8 := (Nat.div_le_self _ _).trans_lt A.isLt
  rw [alu_shr]
  refine congrArg Except.ok (BitVec.eq_of_toNat_eq ?_)
  rw [BitVec.toNat_ushiftRight, BitVec.toNat_ofNat, Nat.shiftRight_eq_div_pow, Nat.mod_eq_of_lt hlt]

theorem aluResult_of_not_mem {op : Byte} (h : op ∉ aluOpcodes) (A B : Byte) :
    aluResult op A B = none := by
  simp only [aluOpcodes, List.mem_cons, List.not_mem_nil, or_false, not_or,
    BitVec.ofNat_eq_ofNat] at h
  simp only [aluResult, h, if_false]

/-- The ALU has no result outside its set (R85). -/
theorem alu_of_not_mem {op : Byte} (h : op ∉ aluOpcodes) (A B : Byte) :
    alu op A B = .error (.aluInvalidOp op) := by
  simp only [alu, aluResult_of_not_mem h]

/-! ## Which causes are recorded (60_exceptions.md R151, R155) -/

/-- A failed fetch or decode never records AluInvalidOp. -/
theorem decodeTrap_cause_ne_aluInvalidOp (pc : Byte) (e : DecodeError) :
    (decodeTrap pc e).cause.code ≠ .aluInvalidOp := by
  cases e <;> nofun

/-- An instruction records no cause but RegisterIndexFault, so it does not record AluInvalidOp. -/
theorem exec_keeps_aluInvalidOp {i : Instr} {s t : State} (h : exec i s = .next t)
    (ht : t.cause.code = .aluInvalidOp) : s.cause.code = .aluInvalidOp := by
  rcases exec_cases h with ⟨a, -, -, rfl⟩ | ⟨-, hcause, -⟩
  · cases ht
  · rwa [← hcause]

theorem step_keeps_aluInvalidOp {s t : State} (h : step s = .next t)
    (ht : t.cause.code = .aluInvalidOp) : s.cause.code = .aluInvalidOp := by
  obtain ⟨-, ⟨e, -, rfl⟩ | ⟨i, rest, -, hexec⟩⟩ := step_cases h
  · exact absurd ht (decodeTrap_cause_ne_aluInvalidOp s.pc e)
  · exact exec_keeps_aluInvalidOp hexec ht

/-! ## The obligations of 40_alu.md -/

/-- Settles O17, with the sum `alu_add` gives. -/
theorem addWritesSum : Obligations.AddWritesSum :=
  ruleRegReg_of_aluBinary (· + ·) rfl (fun _ _ => rfl) (fun _ _ => rfl) alu_add

/-- Settles O18, with the difference `alu_sub` gives. -/
theorem subWritesDifference : Obligations.SubWritesDifference :=
  ruleRegReg_of_aluBinary (· - ·) rfl (fun _ _ => rfl) (fun _ _ => rfl) alu_sub

/-- Settles O19, with the product `alu_mul` gives. -/
theorem mulWritesLowByteOfProduct : Obligations.MulWritesLowByteOfProduct :=
  ruleRegReg_of_aluBinary (· * ·) rfl (fun _ _ => rfl) (fun _ _ => rfl) alu_mul

/-- Settles O20, with the increment `alu_inc` gives. -/
theorem incAddsOne : Obligations.IncAddsOne :=
  ruleReg_of_effect rfl (fun _ => rfl) fun _ _ _ ha =>
    exec_writesReg_of_aluUnary rfl ha (alu_inc _ _)

/-- Settles O21, with the decrement `alu_dec` gives. -/
theorem decSubtractsOne : Obligations.DecSubtractsOne :=
  ruleReg_of_effect rfl (fun _ => rfl) fun _ _ _ ha =>
    exec_writesReg_of_aluUnary rfl ha (alu_dec _ _)

/-- Settles O22, with the copy `alu_and_eq_source` gives. -/
theorem andCopiesSource : Obligations.AndCopiesSource :=
  ruleRegReg_of_aluBinary (fun _ B => B) rfl (fun _ _ => rfl) (fun _ _ => rfl) alu_and_eq_source

/-- Settles O23, with the copy `alu_or_eq_source` gives. -/
theorem orCopiesSource : Obligations.OrCopiesSource :=
  ruleRegReg_of_aluBinary (fun _ B => B) rfl (fun _ _ => rfl) (fun _ _ => rfl) alu_or_eq_source

/-- Settles O24, with the zero `alu_xor_eq_zero` gives. -/
theorem xorClearsDestination : Obligations.XorClearsDestination :=
  ruleRegReg_of_aluBinary (fun _ _ => 0x00) rfl (fun _ _ => rfl) (fun _ _ => rfl) alu_xor_eq_zero

/-- Settles O25, with the complement `alu_not_eq_complement` gives; `b` is no register operand. -/
theorem notComplementsAndIgnoresSecondByte : Obligations.NotComplementsAndIgnoresSecondByte :=
  ruleRegByte_of_effect rfl (fun _ _ => rfl) fun _ _ _ _ ha =>
    exec_writesReg_of_aluUnary rfl ha (alu_not_eq_complement _ _)

/-- Settles O26, with the multiple `alu_shl_eq_mul_two_pow` gives. -/
theorem shlShiftsByWholeRegister : Obligations.ShlShiftsByWholeRegister :=
  ruleRegReg_of_aluBinary (fun A B => BitVec.ofNat 8 (A.toNat * 2 ^ B.toNat)) rfl (fun _ _ => rfl)
    (fun _ _ => rfl) alu_shl_eq_mul_two_pow

/-- Settles O27, with the quotient `alu_shr_eq_div_two_pow` gives. -/
theorem shrShiftsByWholeRegister : Obligations.ShrShiftsByWholeRegister :=
  ruleRegReg_of_aluBinary (fun A B => BitVec.ofNat 8 (A.toNat / 2 ^ B.toNat)) rfl (fun _ _ => rfl)
    (fun _ _ => rfl) alu_shr_eq_div_two_pow

/-- Settles O28: the ALU's opcodes are the ones it tests for, and of the causes a step can record none
is AluInvalidOp. -/
theorem aluInvalidOpIsUnreachable : Obligations.AluInvalidOpIsUnreachable :=
  ⟨fun _ A B hop => ⟨_, alu_of_mem hop A B⟩, fun _ A B hop => alu_of_not_mem hop A B,
    fun _ _ _ => exec_keeps_aluInvalidOp, fun _ _ => step_keeps_aluInvalidOp⟩

end Sys2Proof.Machine

namespace Sys2Proof.Machine

/-! ## Moving PC on, and the rules without operands (10_state.md R14, 41_dispatch_and_loop.md R98, R99) -/

theorem fallsThrough_advance (s : State) (n : Nat) : FallsThrough n s (s.advance n) :=
  ⟨wrapPC_toNat (s.pc.toNat + n), fun _ _ => rfl, fun _ => rfl, rfl, ⟨rfl, rfl⟩, rfl⟩

/-- The rule of an instruction without operands, from its row of the table and the next state it
answers. -/
theorem ruleF0_of_next {op : Byte} {i : Instr} {effect : State → State → Prop} (next : State → State)
    (hf : formatOf op = some (.f0 i)) (hexec : ∀ s, exec i s = .next (next s))
    (heffect : ∀ s, effect s (next s)) : RuleF0 op i effect :=
  ⟨decode_f0 hf, fun s => ⟨next s, hexec s, heffect s⟩⟩

/-! ## The obligations of 41_dispatch_and_loop.md -/

/-- Settles O32: NOP falls through by `fallsThrough_advance`. -/
theorem nopOnlyAdvancesPc : Obligations.NopOnlyAdvancesPc :=
  ruleF0_of_next (fun s => s.advance 1) rfl (fun _ => rfl) fun s => fallsThrough_advance s 1

/-- Settles O33: HLT falls through, as NOP does, from the state whose RUN it has set to Halted. -/
theorem hltHaltsAndAdvancesPc : Obligations.HltHaltsAndAdvancesPc := by
  refine ruleF0_of_next (fun s => (s.setRun .halted).advance 1) rfl (fun _ => rfl) fun s => ?_
  obtain ⟨hpc, hregs, hmem, hfl, ⟨hrun, hcause⟩, hout⟩ := fallsThrough_advance (s.setRun .halted) 1
  exact ⟨hrun, hcause, hpc, hregs, hmem, hfl, hout⟩

end Sys2Proof.Machine

namespace Sys2Proof.Machine

/-! ## The stack operations (42_stack_and_subroutine.md R110) -/

/-- `s` after SP is decremented and `v` is stored at the new SP, as PUSH and CALL do before they set PC
(R111, R113). -/
def State.pushByte (s : State) (v : Byte) : State :=
  { s.preDecrement with mem := Memory.write s.mem (s.preDecrement.reg RegId.sp).toNat v }

theorem State.reg_sp_preDecrement (s : State) :
    s.preDecrement.reg RegId.sp = s.reg RegId.sp - 1 :=
  (s.reg_preDecrement RegId.sp).trans (if_pos rfl)

theorem keepsRegsBut_preDecrement (s : State) : KeepsRegsBut [RegId.sp] s s.preDecrement :=
  fun j hj => (s.reg_preDecrement j).trans (if_neg (List.ne_of_not_mem_cons hj))

theorem storesByte_pushByte (s : State) (v : Byte) :
    StoresByte (s.reg RegId.sp - 1) v s (s.pushByte v) := by
  intro x
  rw [← s.reg_sp_preDecrement]
  exact Memory.read_write s.mem _ x v

theorem State.reg_sp_postIncrement (s : State) :
    s.postIncrement.reg RegId.sp = s.reg RegId.sp + 1 :=
  (s.reg_postIncrement RegId.sp).trans (if_pos rfl)

theorem keepsRegsBut_postIncrement (s : State) : KeepsRegsBut [RegId.sp] s s.postIncrement :=
  fun j hj => (s.reg_postIncrement j).trans (if_neg (List.ne_of_not_mem_cons hj))

/-- POP increments SP after it has written its register, so the byte popped into SP is incremented
(R112). -/
theorem State.reg_setReg_postIncrement (s : State) (r : RegId) (v : Byte) :
    (s.setReg r v).postIncrement.reg r = if r = RegId.sp then v + 1 else v := by
  by_cases h : r = RegId.sp
  · subst h
    rw [State.reg_sp_postIncrement, State.reg_setReg, if_pos rfl, if_pos rfl]
  · rw [State.reg_postIncrement, if_neg h, State.reg_setReg, if_pos rfl, if_neg h]

theorem State.reg_sp_setReg_postIncrement (s : State) (r : RegId) (v : Byte) :
    (s.setReg r v).postIncrement.reg RegId.sp
      = if r = RegId.sp then v + 1 else s.reg RegId.sp + 1 := by
  rw [State.reg_sp_postIncrement, State.reg_setReg]
  by_cases h : r = RegId.sp
  · rw [if_pos h.symm, if_pos h]
  · rw [if_neg (Ne.symm h), if_neg h]

theorem keepsRegsBut_setReg_postIncrement (s : State) (r : RegId) (v : Byte) :
    KeepsRegsBut [r, RegId.sp] s (s.setReg r v).postIncrement := by
  intro j hj
  rw [keepsRegsBut_postIncrement _ j (List.not_mem_of_not_mem_cons hj), State.reg_setReg,
    if_neg (List.ne_of_not_mem_cons hj)]

/-! ## What the stack instructions answer on legal operands -/

/-- The register pushed is read after the decrement, which shows when it is SP itself (R111). -/
theorem exec_push_of_eq {a : Byte} {ra : RegId} (ha : a.toNat = ra.val) (s : State) :
    exec (.push a) s = .next
      ((s.pushByte (if ra = RegId.sp then s.reg RegId.sp - 1 else s.reg ra)).advance 2) := by
  rw [← s.reg_preDecrement ra]
  exact execPush_ok ha

/-- The target is read after the decrement, which shows when it is in SP itself (R113). -/
theorem exec_call_of_eq {a : Byte} {ra : RegId} (ha : a.toNat = ra.val) (s : State) :
    exec (.call a) s = .next ((s.pushByte (s.pc + 2)).setPc
      (if ra = RegId.sp then s.reg RegId.sp - 1 else s.reg ra)) := by
  rw [← s.reg_preDecrement ra, ← trunc8_add s.pc 2]
  exact execCall_ok ha

/-! ## The obligations of 42_stack_and_subroutine.md -/

/-- Settles O34: PUSH is `pushByte` of the register as it is after the decrement, and moves on. -/
theorem pushDecrementsThenStores : Obligations.PushDecrementsThenStores :=
  ruleReg_of_effect rfl (fun _ => rfl) fun s _ _ ha =>
    ⟨_, exec_push_of_eq ha s, s.reg_sp_preDecrement, storesByte_pushByte s _,
      keepsRegsBut_preDecrement s, rfl, ⟨rfl, rfl⟩, rfl, wrapPC_toNat (s.pc.toNat + 2)⟩

/-- Settles O35: POP writes its register, then increments SP, as `State.reg_setReg_postIncrement` has it. -/
theorem popReadsThenIncrements : Obligations.PopReadsThenIncrements :=
  ruleReg_of_effect rfl (fun _ => rfl) fun s _ ra ha =>
    ⟨_, execPop_ok ha, s.reg_setReg_postIncrement ra _, s.reg_sp_setReg_postIncrement ra _,
      keepsRegsBut_setReg_postIncrement s ra _, fun _ => rfl, rfl, ⟨rfl, rfl⟩, rfl,
      wrapPC_toNat (s.pc.toNat + 2)⟩

/-- Settles O36: CALL is `pushByte` of the address after it, and a jump to the register as it is after
the decrement. -/
theorem callStoresReturnAddressAndJumps : Obligations.CallStoresReturnAddressAndJumps :=
  ruleReg_of_effect rfl (fun _ => rfl) fun s _ _ ha =>
    ⟨_, exec_call_of_eq ha s, rfl, s.reg_sp_preDecrement, storesByte_pushByte s _,
      keepsRegsBut_preDecrement s, rfl, ⟨rfl, rfl⟩, rfl⟩

/-- Settles O37: RET reads its target at the old SP, by `execRet_eq`, and increments SP. -/
theorem retPopsPc : Obligations.RetPopsPc :=
  ruleF0_of_next (fun s => s.postIncrement.setPc (Memory.read s.mem (s.reg RegId.sp).toNat)) rfl
    (fun _ => execRet_eq) fun s =>
    ⟨rfl, s.reg_sp_postIncrement, keepsRegsBut_postIncrement s, fun _ => rfl, rfl, ⟨rfl, rfl⟩, rfl⟩

end Sys2Proof.Machine

namespace Sys2Proof.Machine

/-! ## The comparison and the branch tests (43_compare_and_branch.md R121, R123, R124) -/

section Flags

variable (e : FlagEncoding) {x y fl : Byte}

theorem compareFlag_of_eq (h : x.toNat = y.toNat) : compareFlag e x y = e.equal :=
  if_pos (BitVec.eq_of_toNat_eq h)

theorem compareFlag_of_gt (h : x.toNat > y.toNat) : compareFlag e x y = e.greater :=
  (if_neg fun heq => Nat.ne_of_gt h (congrArg BitVec.toNat heq)).trans (if_pos h)

theorem compareFlag_of_lt (h : x.toNat < y.toNat) : compareFlag e x y = e.less :=
  (if_neg fun heq => Nat.ne_of_lt h (congrArg BitVec.toNat heq)).trans (if_neg (Nat.lt_asymm h))

theorem jeqTaken_iff : jeqTaken e fl = true ↔ fl = e.equal :=
  beq_iff_eq

theorem jneTaken_iff : jneTaken e fl = true ↔ fl.toNat > e.equal.toNat :=
  decide_eq_true_iff

end Flags

/-! ## The effect of a branch -/

theorem jumpsTo_setPc (s : State) (target : Byte) : JumpsTo target s (s.setPc target) :=
  ⟨rfl, fun _ _ => rfl, fun _ => rfl, rfl, ⟨rfl, rfl⟩, rfl⟩

/-- The rule of a conditional jump, from what its test says of the state. The operand is checked on
both branches (R123, R124). -/
theorem ruleReg_of_jumpIf {op : Byte} {mk : Byte → Instr} (taken : State → Bool) (P : State → Prop)
    [DecidablePred P] (hf : formatOf op = some (.f1 mk)) (hregs : ∀ a, (mk a).regOperands = [a])
    (hexec : ∀ a s, exec (mk a) s = jumpIf (taken s) a s) (htaken : ∀ s, taken s = true ↔ P s) :
    RuleReg op mk fun ra s t => if P s then JumpsTo (s.reg ra) s t else FallsThrough 2 s t := by
  refine ruleReg_of_effect hf hregs fun s a ra ha =>
    ⟨_, (hexec a s).trans (jumpIf_ok ha), ?_⟩
  by_cases hP : P s
  · rw [if_pos hP, if_pos ((htaken s).mpr hP)]
    exact jumpsTo_setPc s (s.reg ra)
  · rw [if_neg hP, if_neg (mt (htaken s).mp hP)]
    exact fallsThrough_advance s 2

/-! ## The obligations of 43_compare_and_branch.md -/

/-- Settles O41: CMP falls through from the state whose FL it has set, and an unsigned comparison has
one of three outcomes. -/
theorem cmpSetsOneOutcome : Obligations.CmpSetsOneOutcome := by
  refine ruleRegReg_of_effect rfl (fun _ _ => rfl) fun s a b ra rb ha hb =>
    ⟨_, execCmp_ok ha hb, compareFlag_of_eq _, compareFlag_of_gt _, compareFlag_of_lt _, ?frame⟩
  case frame =>
    obtain ⟨hpc, hregs, hmem, -, hrun, hout⟩ :=
      fallsThrough_advance (s.setFl (compareFlag Config.flags (s.reg ra) (s.reg rb))) 3
    exact ⟨hregs, hmem, hrun, hout, hpc⟩

/-- Settles O42: JMP is the jump that is always taken. -/
theorem jmpJumps : Obligations.JmpJumps :=
  ruleReg_of_effect rfl (fun _ => rfl) fun s _ ra ha =>
    ⟨_, jumpIf_ok (taken := true) ha, jumpsTo_setPc s (s.reg ra)⟩

/-- Settles O43, with the test `jeqTaken_iff` gives. -/
theorem jeqJumpsIfEqual : Obligations.JeqJumpsIfEqual :=
  ruleReg_of_jumpIf (fun s => jeqTaken Config.flags s.fl) (fun s => s.fl = Config.flags.equal) rfl
    (fun _ => rfl) (fun _ _ => rfl) fun _ => jeqTaken_iff Config.flags

/-- Settles O44, with the test `jneTaken_iff` gives. -/
theorem jneJumpsIfAboveEqual : Obligations.JneJumpsIfAboveEqual :=
  ruleReg_of_jumpIf (fun s => jneTaken Config.flags s.fl)
    (fun s => s.fl.toNat > Config.flags.equal.toNat) rfl (fun _ => rfl) (fun _ _ => rfl)
    fun _ => jneTaken_iff Config.flags

end Sys2Proof.Machine

namespace Sys2Proof.Machine

/-! ## Loading the operand byte itself (44_data_transfer.md R130, R131) -/

/-- The rule of an instruction whose meaning is `loadByte`, which LDI and LD share: the register
written holds `b` as fetched. -/
theorem ruleRegByte_of_loadByte {op : Byte} {mk : Byte → Byte → Instr}
    (hf : formatOf op = some (.f2 mk)) (hregs : ∀ a b, (mk a b).regOperands = [a])
    (hexec : ∀ a b, exec (mk a b) = loadByte a b) :
    RuleRegByte op mk fun ra b s t => WritesReg ra b 3 s t :=
  ruleRegByte_of_effect hf hregs fun s a b ra ha =>
    ⟨_, (congrFun (hexec a b) s).trans (loadByte_ok ha), writesReg_setReg_advance s ra b 3⟩

/-! ## The obligations of 44_data_transfer.md -/

/-- Settles O29: LDI is `loadByte`. -/
theorem ldiLoadsImmediate : Obligations.LdiLoadsImmediate :=
  ruleRegByte_of_loadByte rfl (fun _ _ => rfl) fun _ _ => rfl

/-- Settles O30: LD is `loadByte`, as LDI is (decision D4). -/
theorem ldLoadsRawOperandByte : Obligations.LdLoadsRawOperandByte :=
  ruleRegByte_of_loadByte rfl (fun _ _ => rfl) fun _ _ => rfl

/-- Settles O31: by `execSt_ok`, ST writes the value of the second register and moves on. -/
theorem stCopiesRegister : Obligations.StCopiesRegister :=
  ruleRegReg_of_effect rfl (fun _ _ => rfl) fun s _ _ ra rb ha hb =>
    ⟨_, execSt_ok ha hb, writesReg_setReg_advance s ra (s.reg rb) 3⟩

end Sys2Proof.Machine

namespace Sys2Proof.Machine

/-! ## Emitting a register's value (45_output.md R140) -/

/-- Emitting leaves all but OUT as it was, so what remains is the fall-through from the state that has
emitted. -/
theorem emitsEvent_emit_advance (s : State) (kind : OutKind) (v : Byte) :
    EmitsEvent kind v s ((s.emit kind v).advance 2) := by
  obtain ⟨hpc, hregs, hmem, hfl, hrun, hout⟩ := fallsThrough_advance (s.emit kind v) 2
  exact ⟨hout, hregs, hmem, hfl, hrun, hpc⟩

/-- The rule of an instruction whose meaning is `emitReg`, which PRN and PRA share: they differ in the
kind of the event only. -/
theorem ruleReg_of_emitReg {op : Byte} {mk : Byte → Instr} (kind : OutKind)
    (hf : formatOf op = some (.f1 mk)) (hregs : ∀ a, (mk a).regOperands = [a])
    (hexec : ∀ a, exec (mk a) = emitReg kind a) :
    RuleReg op mk fun ra s t => EmitsEvent kind (s.reg ra) s t :=
  ruleReg_of_effect hf hregs fun s a ra ha =>
    ⟨_, (congrFun (hexec a) s).trans (emitReg_ok ha), emitsEvent_emit_advance s kind (s.reg ra)⟩

/-! ## The obligations of 45_output.md -/

/-- Settles O47: PRN is `emitReg` with the kind of a number. -/
theorem prnEmitsNumber : Obligations.PrnEmitsNumber :=
  ruleReg_of_emitReg .prn rfl (fun _ => rfl) fun _ => rfl

/-- Settles O48: PRA is `emitReg` with the kind of a character. -/
theorem praEmitsCharacter : Obligations.PraEmitsCharacter :=
  ruleReg_of_emitReg .pra rfl (fun _ => rfl) fun _ => rfl

end Sys2Proof.Machine

namespace Sys2Proof.Machine

section DecodeFault

variable {s t : State} {code : CauseCode} {info : Nat}

/-! ## What a failing check of R58 records (60_exceptions.md R151 to R154) -/

/-- A failing check has a cause, and its info is a byte or an address at most two above PC. -/
theorem decodeFault_report (h : decodeFault s = some (code, info)) :
    code ≠ .none ∧ (info ≤ 255 ∨ info ≤ s.pc.toNat + 2) := by
  have hbyte (b : Byte) : b.toNat ≤ 255 := Nat.le_of_lt_succ b.isLt
  dsimp only [decodeFault] at h
  split_ifs at h <;> cases h
  -- memory ends before operand `a` or `b`; operand `a` or `b` is above 7; no such opcode
  · exact ⟨by decide, .inr (Nat.le_succ _)⟩
  · exact ⟨by decide, .inr le_rfl⟩
  · exact ⟨by decide, .inl (hbyte _)⟩
  · exact ⟨by decide, .inl (hbyte _)⟩
  · exact ⟨by decide, .inl (hbyte _)⟩

/-- The info of a failing check fits in the 9 bits of CAUSE (10_state.md R20). -/
theorem decodeFault_info_lt (h : decodeFault s = some (code, info)) : info < 2 ^ 9 := by
  have := s.pc.isLt
  obtain ⟨-, hinfo⟩ := decodeFault_report h
  omega

/-- A failing check is the fault the step takes, as `stepRaisesFirstFaultInDecodeOrder` says. -/
theorem step_of_decodeFault (hrun : s.run = .running) (h : decodeFault s = some (code, info)) :
    step s = .next (faulted s code info) := by
  have hstep := stepRaisesFirstFaultInDecodeOrder s hrun
  rwa [h] at hstep

/-- A step to FatalError takes the fault of the first failing check. -/
theorem eq_faulted_of_step_fatalError (h : step s = .next t) (ht : t.run = .fatalError) :
    ∃ code info, decodeFault s = some (code, info) ∧ t = faulted s code info := by
  have hrun := (step_cases h).1
  obtain ⟨⟨code, info⟩, hf⟩ := Option.isSome_iff_exists.mp ((step_run_eq_fatalError_iff h).mp ht)
  exact ⟨code, info, hf, Host.Outcome.next.inj (h.symm.trans (step_of_decodeFault hrun hf))⟩

/-- Taking a fault ends the run (R156). -/
theorem step_faulted_ne_next (u : State) : step (faulted s code info) ≠ .next u := fun h =>
  absurd (step_cases h).1 (by decide : RunState.fatalError ≠ .running)

end DecodeFault

/-! ## The obligation of 60_exceptions.md -/

/-- Settles O15: such a step leaves the faulted state, which differs from the state before it in RUN and
CAUSE alone, and CAUSE holds the whole of the info by `decodeFault_info_lt`. -/
theorem faultChangesOnlyRunAndCause : Obligations.FaultChangesOnlyRunAndCause := by
  intro s t h ht
  obtain ⟨code, info, hf, rfl⟩ := eq_faulted_of_step_fatalError h ht
  exact ⟨⟨code, info, hf, (decodeFault_report hf).1, rfl, Nat.mod_eq_of_lt (decodeFault_info_lt hf)⟩,
    rfl, rfl, rfl, rfl, rfl, step_faulted_ne_next⟩

end Sys2Proof.Machine

namespace Sys2Proof

/-! ## Encoding and decoding (30_encoding.md R50, R55) -/

theorem decode_encode_append (i : Instr) (rest : List Byte) :
    decode (encode i ++ rest) = .ok (i, rest) := by
  cases i with
  | nop | hlt | ret => exact decode_f0 rfl rest
  | call a | jmp a | jeq a | jne a | push a | pop a | pra a | prn a | inc a | dec a =>
    exact decode_f1 rfl a rest
  | ldi a b | ld a b | st a b | add a b | sub a b | mul a b | and a b | or a b | xor a b | not a b
    | shl a b | shr a b | cmp a b => exact decode_f2 rfl a b rest

/-- Settles O7: an encoding decodes by its row of the table, and a decoded instruction has the bytes of
its encoding by `eq_encode_append_of_decode`. -/
theorem decodeInvertsEncode : Obligations.DecodeInvertsEncode := by
  intro i bytes rest
  refine ⟨eq_encode_append_of_decode, ?_⟩
  rintro rfl
  exact decode_encode_append i rest

/-- No instruction is longer than three bytes. -/
theorem encode_length_le (i : Instr) : (encode i).length ≤ 3 := by
  cases i with
  | nop | hlt | ret => exact Nat.le_add_left 1 2
  | call a | jmp a | jeq a | jne a | push a | pop a | pra a | prn a | inc a | dec a =>
    exact Nat.le_add_left 2 1
  | ldi a b | ld a b | st a b | add a b | sub a b | mul a b | and a b | or a b | xor a b | not a b
    | shl a b | shr a b | cmp a b => exact le_rfl

theorem encode_length_pos (i : Instr) : 0 < (encode i).length := by
  cases i <;> exact Nat.succ_pos _

/-- Settles O6, by looking the first byte of each word up in the table. -/
theorem wordsDecodeAsTabled : Obligations.WordsDecodeAsTabled := by
  unfold Obligations.WordsDecodeAsTabled
  decide

end Sys2Proof

namespace Sys2Proof.Machine

/-! ## Steps that complete (30_encoding.md R58) -/

/-- A step that does not fault has executed a well-formed instruction. -/
theorem step_cases_of_ne_fatalError {s t : State} (h : step s = .next t) (ht : t.run ≠ .fatalError) :
    ∃ i rest, decode (fetchBytes s) = .ok (i, rest) ∧ i.WellFormed ∧ exec i s = .next t := by
  have hrun := (step_cases h).1
  have hnone : fetchTrap s = none := by
    simpa [decodeFault_eq_fetchTrap] using mt (step_run_eq_fatalError_iff h).mpr ht
  obtain ⟨i, rest, hd, hwf⟩ := decode_of_fetchTrap_none hnone
  exact ⟨i, rest, hd, hwf, (step_of_decode_ok hrun hd).symm.trans h⟩

/-! ## The invariant (10_state.md R16, R19, R21) -/

/-- What a failing check records is true of the bytes at PC (60_exceptions.md R151 to R154). -/
theorem causeTruthful_faulted {s : State} {code : CauseCode} {info : Nat}
    (h : decodeFault s = some (code, info)) : CauseTruthful (faulted s code info) := by
  have hpc := s.pc.isLt
  have hinfo : (faulted s code info).cause.info.toNat = info :=
    Nat.mod_eq_of_lt (decodeFault_info_lt h)
  dsimp only [decodeFault] at h
  split_ifs at h <;> obtain ⟨rfl, rfl⟩ := Prod.mk.inj (Option.some.inj h)
  -- memory ends before operand `a` or `b`; operand `a` or `b` is above 7; no such opcode
  · exact ⟨hinfo.trans (by omega), show 254 ≤ s.pc.toNat by omega⟩
  · exact ⟨hinfo.trans (by omega), show 254 ≤ s.pc.toNat by omega⟩
  · next ha => exact ⟨hinfo.symm ▸ ha, .inl hinfo⟩
  · next hb => exact ⟨hinfo.symm ▸ hb.2, .inr hinfo⟩
  · next hop => exact ⟨formatOf_eq_none_iff.mpr hop, hinfo⟩

theorem causeTruthful_of_cause_eq_reset {s : State} (hs : s.run ≠ .fatalError)
    (h : s.cause = Cause.reset) : CauseTruthful s := by
  unfold CauseTruthful
  split
  · exact h
  · exact h
  · next hrun => exact absurd hrun hs

theorem cause_eq_reset_of_running {s : State} (h : CauseTruthful s) (hrun : s.run = .running) :
    s.cause = Cause.reset := by
  unfold CauseTruthful at h
  rwa [hrun] at h

theorem exec_keeps_mem_wf {i : Instr} {s t : State} (h : exec i s = .next t)
    (hs : Memory.wf s.mem) : Memory.wf t.mem := by
  rcases exec_cases h with ⟨a, -, -, rfl⟩ | ⟨-, -, -, -, hmem | ⟨-, v, hmem⟩⟩
  · exact hs
  · exact hmem ▸ hs
  · exact hmem ▸ Memory.wf_write hs v (s.reg RegId.sp - 1).isLt

/-- FL holds one of the four values of R16. -/
def FlagValue (v : Byte) : Prop :=
  v = Config.flags.reset ∨ v = Config.flags.equal ∨ v = Config.flags.greater ∨ v = Config.flags.less

theorem exec_keeps_flagValue {i : Instr} {s t : State} (h : exec i s = .next t)
    (hs : FlagValue s.fl) : FlagValue t.fl := by
  rcases exec_cases h with ⟨a, -, -, rfl⟩ | ⟨-, -, -, hfl | ⟨-, hfl⟩, -⟩
  · exact hs
  · exact hfl ▸ hs
  · exact .inr hfl

theorem step_keeps_inv {s t : State} (hs : s.Inv) (h : step s = .next t) : t.Inv := by
  by_cases ht : t.run = .fatalError
  · obtain ⟨code, info, hf, rfl⟩ := eq_faulted_of_step_fatalError h ht
    exact ⟨hs.mem, hs.fl, causeTruthful_faulted hf⟩
  · have hrun := (step_cases h).1
    obtain ⟨i, -, -, hwf, hexec⟩ := step_cases_of_ne_fatalError h ht
    have hcause := (exec_of_wellFormed hwf hrun hexec).2.trans (cause_eq_reset_of_running hs.cause hrun)
    exact ⟨exec_keeps_mem_wf hexec hs.mem, exec_keeps_flagValue hexec hs.fl,
      causeTruthful_of_cause_eq_reset ht hcause⟩

/-- Settles O57: a fault records what is true of the bytes at PC, and an instruction that completes
keeps CAUSE, the canonical form of memory and the range of FL. -/
theorem stepKeepsInvariant : Obligations.StepKeepsInvariant :=
  fun _ _ => step_keeps_inv

/-! ## The invariant along a run (10_state.md R18, R19, 60_exceptions.md R151) -/

theorem inv_initial (image : Image) : (State.initial image).Inv :=
  ⟨wf_writeBytes Memory.wf_nil 0 image.toList (by simp [Config.memSize]), .inl rfl, rfl⟩

/-- Settles O55: memory has no entry at reset. -/
theorem invariantHoldsAtReset : Obligations.InvariantHoldsAtReset :=
  ⟨Memory.wf_nil, .inl rfl, rfl⟩

/-- Settles O56: the image is written into empty memory, which keeps the canonical form. -/
theorem invariantHoldsForEveryImage : Obligations.InvariantHoldsForEveryImage :=
  inv_initial

/-- A truthful CAUSE has a code of 1 to 3 in FatalError and 0 otherwise. -/
theorem code_of_causeTruthful {s : State} (h : CauseTruthful s) :
    (s.run = .fatalError ↔ s.cause.code.number ≠ 0) ∧ s.cause.code.number.toNat ≤ 3 := by
  unfold CauseTruthful at h
  split at h
  · next hrun => simp [hrun, h, Cause.reset, CauseCode.number]
  · next hrun => simp [hrun, h, Cause.reset, CauseCode.number]
  · next hrun =>
    split at h
    · exact h.elim
    · next hcode => simp [hrun, hcode, CauseCode.number]
    · next hcode => simp [hrun, hcode, CauseCode.number]
    · next hcode => simp [hrun, hcode, CauseCode.number]
    · exact h.elim

/-- Settles O58: the invariant holds at the start, every step keeps it, and it bounds the code. -/
theorem runsFromAnyImageKeepInvariant : Obligations.RunsFromAnyImageKeepInvariant := by
  intro image s h
  have hinv : s.Inv := reaches_keeps (P := State.Inv) (fun _ _ => step_keeps_inv) h (inv_initial image)
  exact ⟨hinv, code_of_causeTruthful hinv.cause⟩

/-- Settles O59: a failing check of a running state leads to FatalError, and FatalError is entered in no
other way. -/
theorem safeRunsAreThoseWithoutDecodeFault : Obligations.SafeRunsAreThoseWithoutDecodeFault := by
  intro s hs
  refine ⟨fun hsafe t ht hrun => ?_, fun hnone t ht => ?_⟩
  · by_contra hf
    obtain ⟨⟨code, info⟩, hf⟩ := Option.ne_none_iff_exists'.mp hf
    exact hsafe _ (ht.tail (step_of_decodeFault hrun hf)) rfl
  · cases ht with
    | refl => exact hs
    | tail hu hstep =>
      refine mt (step_run_eq_fatalError_iff hstep).mp ?_
      simp [hnone _ hu (step_cases hstep).1]

end Sys2Proof.Machine

namespace Sys2Proof.Machine

/-! ## Reset and the image (10_state.md R25, 70_reset_and_hazards.md R184) -/

theorem ofProgram_of_length_le {bytes : List Byte} (h : bytes.length ≤ 256) :
    Image.ofProgram bytes
      = some (Vector.ofFn fun i => bytes.getD i.val Config.memFill) :=
  if_pos h

/-- Settles O3: memory holds the image by `read_initial`, and the image pads the program with the fill
byte. -/
theorem programLoadsFromAddressZero : Obligations.ProgramLoadsFromAddressZero := by
  intro bytes hlen
  refine ⟨_, ofProgram_of_length_le hlen, fun i => ?_⟩
  rw [read_initial, Fin.getElem_fin, Vector.getElem_ofFn]
  split
  · next h => exact (List.getElem_eq_getD Config.memFill).symm
  · next h => exact List.getD_eq_default _ _ (Nat.le_of_not_lt h)

/-- Settles O1: the fields of `State.reset`, and memory without an entry. -/
theorem resetStateValues : Obligations.ResetStateValues := by
  have hregs : ∀ r : RegId, State.reset.reg r = if r = RegId.sp then 0xF4 else 0x00 := by decide
  exact ⟨hregs, rfl, rfl, rfl, rfl, rfl, fun _ => rfl, rfl⟩

/-! ## The bytes at PC (30_encoding.md R51, 41_dispatch_and_loop.md R91) -/

/-- A fetch of at least as many bytes as memory holds of `bytes` at `addr` reads them first. -/
theorem fetchFrom_eq_append (s : State) (bytes : List Byte) (n addr : Nat) (hlen : bytes.length ≤ n)
    (h : ∀ k (hk : k < bytes.length), addr + k ≤ 255 ∧ Memory.read s.mem (addr + k) = bytes[k]) :
    ∃ rest, fetchFrom s n addr = bytes ++ rest := by
  induction bytes generalizing n addr with
  | nil => exact ⟨_, rfl⟩
  | cons b bytes ih =>
    obtain ⟨n, rfl⟩ := Nat.exists_eq_succ_of_ne_zero (Nat.ne_zero_of_lt hlen)
    obtain ⟨hle, hread⟩ : addr ≤ 255 ∧ Memory.read s.mem addr = b := h 0 (Nat.succ_pos _)
    obtain ⟨rest, hrest⟩ := ih n (addr + 1) (Nat.le_of_succ_le_succ hlen) fun k hk => by
      have hnext := h (k + 1) (Nat.succ_lt_succ hk)
      rwa [show addr + (k + 1) = addr + 1 + k by omega] at hnext
    refine ⟨rest, ?_⟩
    rw [Nat.succ_eq_add_one, fetchFrom_succ s n hle, hread, hrest, List.cons_append]

/-- Settles O10: the fetched bytes begin with the encoding, which decodes to the instruction. -/
theorem stepRunsBytesAtPc : Obligations.StepRunsBytesAtPc := by
  intro s i hrun hmem
  obtain ⟨rest, hfetch⟩ :=
    fetchFrom_eq_append s (encode i) 3 s.pc.toNat (encode_length_le i) hmem
  have hbytes : fetchBytes s = encode i ++ rest := hfetch
  exact step_of_decode_ok hrun (hbytes ▸ decode_encode_append i rest)

/-- Settles O9: this is `step_of_decode_ok`. -/
theorem stepRunsDecodedInstruction : Obligations.StepRunsDecodedInstruction :=
  fun _ _ _ hrun h => step_of_decode_ok hrun h

/-- Settles O13: `step` looks at RUN first. -/
theorem endedRunStopsByName : Obligations.EndedRunStopsByName :=
  fun s => ⟨fun h => by simp only [step, h], fun h => by simp only [step, h]⟩

/-! ## The word the host places (log entry 6) -/

/-- The word lies at PC, where three bytes fit. -/
theorem fetchBytes_withFetchWord (s : State) (nbits w : Nat) :
    fetchBytes (s.withFetchWord nbits w) = tableWordBytes nbits w := by
  rw [fetchBytes_full (s := s.withFetchWord nbits w) s.readyToFetch_pc]
  simp [State.withFetchWord, read_writeBytes, tableWordBytes]

theorem decode_of_decodeTableWord {nbits w : Nat} {i : Instr} (h : decodeTableWord nbits w = some i) :
    ∃ rest, decode (tableWordBytes nbits w) = .ok (i, rest) := by
  unfold decodeTableWord at h
  split at h
  · next j rest hd => exact ⟨rest, Option.some.inj h ▸ hd⟩
  · cases h

/-- Settles O14: the state is made ready to run, and fetches the word placed. -/
theorem placedWordRunsNext : Obligations.PlacedWordRunsNext := by
  intro s nbits w i h
  obtain ⟨rest, hd⟩ := decode_of_decodeTableWord h
  exact step_of_decode_ok s.readyToFetch_run ((fetchBytes_withFetchWord s nbits w).symm ▸ hd)

/-! ## Where PC goes (10_state.md R14, R15) -/

/-- RET, CALL, JMP, JEQ and JNE, which set PC otherwise than past themselves (R15). -/
def BranchClass (i : Instr) : Prop :=
  i = .ret ∨ ∃ a, i = .call a ∨ i = .jmp a ∨ i = .jeq a ∨ i = .jne a

theorem exec_pc_of_not_branchClass {i : Instr} {s t : State} (hwf : i.WellFormed)
    (hi : ¬ BranchClass i) (h : exec i s = .next t) :
    t.pc = wrapPC (s.pc.toNat + (encode i).length) := by
  have hpc {u : State} (hu : exec i s = .next u)
      (hlen : u.pc = wrapPC (s.pc.toNat + (encode i).length)) :
      t.pc = wrapPC (s.pc.toNat + (encode i).length) :=
    Host.Outcome.next.inj (h.symm.trans hu) ▸ hlen
  cases i with
  | ret => exact absurd (.inl rfl) hi
  | call a | jmp a | jeq a | jne a => exact absurd (.inr ⟨a, by simp⟩) hi
  | nop | hlt => exact hpc rfl rfl
  | push a =>
    obtain ⟨ra, ha⟩ := exists_reg hwf List.mem_cons_self
    exact hpc (execPush_ok ha) rfl
  | pop a =>
    obtain ⟨ra, ha⟩ := exists_reg hwf List.mem_cons_self
    exact hpc (execPop_ok ha) rfl
  | pra a | prn a =>
    obtain ⟨ra, ha⟩ := exists_reg hwf List.mem_cons_self
    exact hpc (emitReg_ok ha) rfl
  | ldi a b | ld a b =>
    obtain ⟨ra, ha⟩ := exists_reg hwf List.mem_cons_self
    exact hpc (loadByte_ok ha) rfl
  | inc a | dec a | not a b =>
    obtain ⟨ra, ha⟩ := exists_reg hwf List.mem_cons_self
    exact hpc (aluUnary_ok ha (alu_of_mem (by decide) _ _)) rfl
  | st a b =>
    obtain ⟨ra, rb, ha, hb⟩ := exists_reg_pair hwf rfl
    exact hpc (execSt_ok ha hb) rfl
  | add a b | sub a b | mul a b | and a b | or a b | xor a b | shl a b | shr a b =>
    obtain ⟨ra, rb, ha, hb⟩ := exists_reg_pair hwf rfl
    exact hpc (aluBinary_ok ha hb (alu_of_mem (by decide) _ _)) rfl
  | cmp a b =>
    obtain ⟨ra, rb, ha, hb⟩ := exists_reg_pair hwf rfl
    exact hpc (execCmp_ok ha hb) rfl

/-- The last byte of a decoded instruction is in memory. -/
theorem pc_add_encode_length_le {s : State} {i : Instr} {rest : List Byte}
    (hd : decode (fetchBytes s) = .ok (i, rest)) : s.pc.toNat + (encode i).length ≤ 256 := by
  have hpos := encode_length_pos i
  have hlast := (encode_at_pc_of_decode hd ((encode i).length - 1) (by omega)).1
  omega

/-- Settles O16: the instruction ends at 255 or below, where "reset to 0" and "modulo 256" agree by
`wrapPC_eq_add`. -/
theorem straightLinePcIsModulo256 : Obligations.StraightLinePcIsModulo256 := by
  intro s t i rest hd hret hbranch h ht
  obtain ⟨j, tail, hj, hwf, hexec⟩ := step_cases_of_ne_fatalError h ht
  obtain ⟨rfl, rfl⟩ : j = i ∧ tail = rest := Prod.mk.inj (Except.ok.inj (hj.symm.trans hd))
  have hi : ¬ BranchClass j := by
    rintro (rfl | ⟨a, ha⟩)
    · exact hret rfl
    · simp [hbranch a] at ha
  rw [exec_pc_of_not_branchClass hwf hi hexec, wrapPC_eq_add _ _ (pc_add_encode_length_le hd)]

end Sys2Proof.Machine

namespace Sys2Proof.Machine

/-! ## Stack instructions one after another (42_stack_and_subroutine.md R112, R114, R115) -/

/-- Settles O38: the rules of PUSH, POP and CALL with operand 7. -/
theorem stackInstructionsOnStackPointer : Obligations.StackInstructionsOnStackPointer := by
  intro s
  obtain ⟨-, hpush, -⟩ := pushDecrementsThenStores
  obtain ⟨-, hpop, -⟩ := popReadsThenIncrements
  obtain ⟨-, hcall, -⟩ := callStoresReturnAddressAndJumps
  obtain ⟨t, hexec, hsp, hstore, -⟩ := hpush s 7 RegId.sp rfl
  obtain ⟨u, hexec', -, hsp', -⟩ := hpop s 7 RegId.sp rfl
  obtain ⟨v, hexec'', hpc, hsp'', hstore', -⟩ := hcall s 7 RegId.sp rfl
  exact ⟨⟨t, hexec, hsp, hstore⟩, ⟨u, hexec', hsp'⟩, ⟨v, hexec'', hsp'', hstore', hpc⟩⟩

theorem read_of_storesByte {s t : State} {addr v : Byte} (h : StoresByte addr v s t) :
    Memory.read t.mem addr.toNat = v :=
  (h addr.toNat).trans (if_pos rfl)

/-- Settles O39: POP reads the byte PUSH stored, and the increment undoes the decrement. -/
theorem pushThenPopRestores : Obligations.PushThenPopRestores := by
  intro s a ra ha
  obtain ⟨-, hpush, -⟩ := pushDecrementsThenStores
  obtain ⟨-, hpop, -⟩ := popReadsThenIncrements
  obtain ⟨t, hexec, hsp, hstore, hkeep, -⟩ := hpush s a ra ha
  obtain ⟨u, hexec', hra, hsp', hkeep', -⟩ := hpop t a ra ha
  refine ⟨t, u, hexec, hexec', Regs.ext_get fun r => ?_⟩
  show u.reg r = s.reg r
  simp only [hsp, read_of_storesByte hstore, BitVec.sub_add_cancel] at hra hsp'
  by_cases hrsp : r = RegId.sp
  · subst hrsp
    rw [hsp']
    split <;> simp
  · by_cases hr : r = ra
    · subst hr
      rw [hra, if_neg hrsp, if_neg hrsp]
    · rw [hkeep' r (by simp [hr, hrsp]), hkeep r (by simp [hrsp])]

/-- Settles O40: the byte RET finds is the address CALL stored, and the increment undoes the
decrement. -/
theorem callThenRetResumes : Obligations.CallThenRetResumes := by
  intro s t u a ra ha hexec hsp hcell
  obtain ⟨-, hcall, -⟩ := callStoresReturnAddressAndJumps
  obtain ⟨t', hexec', -, hspt, hstore, -⟩ := hcall s a ra ha
  obtain rfl := Host.Outcome.next.inj (hexec.symm.trans hexec')
  obtain ⟨-, hret⟩ := retPopsPc
  obtain ⟨v, hv, hpc, hspv, -⟩ := hret u
  refine ⟨v, hv, ?_, ?_⟩
  · rw [hpc, hsp, hcell, hspt, read_of_storesByte hstore]
  · rw [hspv, hsp, hspt, BitVec.sub_add_cancel]

end Sys2Proof.Machine

namespace Sys2Proof.Machine

/-! ## Comparing and then branching (43_compare_and_branch.md R125) -/

/-- Every outcome but Equal is above Equal, which is what the constraints of R5 ask. -/
theorem compareFlag_gt_equal_of_ne {e : FlagEncoding} (he : e.Admissible) {A B : Byte} (h : A ≠ B) :
    (compareFlag e A B).toNat > e.equal.toNat := by
  obtain ⟨-, -, -, -, -, -, hgreater, hless, -⟩ := he
  rcases Nat.lt_or_gt_of_ne (mt BitVec.eq_of_toNat_eq h) with hlt | hgt
  · exact compareFlag_of_lt e hlt ▸ hless
  · exact compareFlag_of_gt e hgt ▸ hgreater

theorem compareFlag_eq_equal_iff {e : FlagEncoding} (he : e.Admissible) {A B : Byte} :
    compareFlag e A B = e.equal ↔ A = B :=
  ⟨fun h => by_contra fun hne =>
      Nat.ne_of_gt (compareFlag_gt_equal_of_ne he hne) (congrArg BitVec.toNat h),
    fun h => compareFlag_of_eq e (congrArg _ h)⟩

theorem compareFlag_gt_equal_iff {e : FlagEncoding} (he : e.Admissible) {A B : Byte} :
    (compareFlag e A B).toNat > e.equal.toNat ↔ A ≠ B := by
  refine ⟨fun h heq => ?_, compareFlag_gt_equal_of_ne he⟩
  rw [(compareFlag_eq_equal_iff he).mpr heq] at h
  exact Nat.lt_irrefl _ h

theorem config_flags_admissible : Config.flags.Admissible := by decide

/-- Settles O45: a comparison leaves FL_E for equal bytes and a value above it for others, and FL_RESET
is below FL_E. -/
theorem branchTableForAnyEncoding : Obligations.BranchTableForAnyEncoding := by
  refine ⟨config_flags_admissible, fun e he A B =>
    ⟨(jeqTaken_iff e).trans (compareFlag_eq_equal_iff he),
      (jneTaken_iff e).trans (compareFlag_gt_equal_iff he), ?jeq, ?jne⟩⟩ <;>
    obtain ⟨-, -, -, -, -, -, -, -, hle, hne, -⟩ := he
  case jeq => exact Bool.eq_false_iff.mpr (mt (jeqTaken_iff e).mp hne)
  case jne => exact Bool.eq_false_iff.mpr (mt (jneTaken_iff e).mp (Nat.not_lt_of_le hle))

/-- Settles O46: JEQ and JNE test the FL that CMP left, which is FL_E for equal registers and above it
for others. -/
theorem branchAfterCompare : Obligations.BranchAfterCompare := by
  intro s a b c ra rb rc ha hb hc
  obtain ⟨t, hcmp, hfl, hrc⟩ : ∃ t, exec (.cmp a b) s = .next t ∧
      t.fl = compareFlag Config.flags (s.reg ra) (s.reg rb) ∧ t.reg rc = s.reg rc :=
    ⟨_, execCmp_ok ha hb, rfl, rfl⟩
  obtain ⟨-, hjeq, -⟩ := jeqJumpsIfEqual
  obtain ⟨-, hjne, -⟩ := jneJumpsIfAboveEqual
  obtain ⟨u, hu, hueffect⟩ := hjeq t c rc hc
  obtain ⟨v, hv, hveffect⟩ := hjne t c rc hc
  simp only [hfl, hrc, compareFlag_eq_equal_iff config_flags_admissible,
    compareFlag_gt_equal_iff config_flags_admissible] at hueffect hveffect
  refine ⟨t, u, v, hcmp, hu, hv, ?_⟩
  by_cases heq : s.reg ra = s.reg rb
  · rw [if_pos heq] at hueffect
    rw [if_neg (not_not_intro heq)] at hveffect
    rw [if_pos heq, if_pos heq]
    exact ⟨hueffect.1, hveffect.1⟩
  · rw [if_neg heq] at hueffect
    rw [if_pos heq] at hveffect
    rw [if_neg heq, if_neg heq]
    exact ⟨hueffect.1, hveffect.1⟩

end Sys2Proof.Machine

namespace Sys2Proof.Machine

/-! ## The host's view (45_output.md R143, 60_exceptions.md R158) -/

theorem text_of_out_append {s t : State} {e : OutEvent} (h : t.out = s.out ++ [e]) :
    t.text = s.text ++ render e := by
  rw [State.text, h, List.flatMap_append, List.flatMap_singleton, State.text]

theorem decimalDigits_range (v : Byte) : ∀ d ∈ decimalDigits v, 48 ≤ d ∧ d ≤ 57 := by
  have hv := v.isLt
  dsimp only [decimalDigits]
  split_ifs <;>
    simp only [List.forall_mem_cons, List.not_mem_nil, false_implies, implies_true, and_true] <;>
    omega

/-- Read as a decimal number, the digits give the byte back. -/
theorem decimalDigits_value (v : Byte) :
    (decimalDigits v).foldl (fun n d => 10 * n + (d - 48)) 0 = v.toNat := by
  dsimp only [decimalDigits]
  split_ifs <;> simp only [List.foldl_cons, List.foldl_nil] <;> omega

theorem decimalDigits_ne_nil (v : Byte) : decimalDigits v ≠ [] := by
  dsimp only [decimalDigits]
  split_ifs <;> exact List.cons_ne_nil _ _

/-- The first of two or three digits is not zero. -/
theorem decimalDigits_no_leading_zero (v : Byte) (h : (decimalDigits v).head? = some 48) :
    decimalDigits v = [48] := by
  dsimp only [decimalDigits] at h ⊢
  split_ifs at h ⊢ <;> have hfirst := Option.some.inj h
  · rw [hfirst]
  · omega
  · omega

/-- Settles O49: PRN and PRA append one event, and PRN's renders to `decimalDigits`. -/
theorem textOfPrnAndPra : Obligations.TextOfPrnAndPra := by
  intro s a ra ha
  obtain ⟨-, hprn, -⟩ := prnEmitsNumber
  obtain ⟨-, hpra, -⟩ := praEmitsCharacter
  obtain ⟨t, hexec, hout, -⟩ := hprn s a ra ha
  obtain ⟨u, hexec', hout', -⟩ := hpra s a ra ha
  exact ⟨⟨t, decimalDigits (s.reg ra), hexec, text_of_out_append hout, decimalDigits_range _,
      decimalDigits_value _, decimalDigits_ne_nil _, decimalDigits_no_leading_zero _⟩,
    ⟨u, hexec', text_of_out_append hout'⟩⟩

theorem hostStatus_of_fatalError {s : State} (h : s.run = .fatalError) : s.hostStatus = some 1 := by
  simp only [State.hostStatus, h]

theorem hostStatus_of_halted {s : State} (h : s.run = .halted) : s.hostStatus = some 0 := by
  simp only [State.hostStatus, h]

theorem hostStatus_eq_none_iff {s : State} : s.hostStatus = none ↔ s.run = .running := by
  unfold State.hostStatus
  split <;> simp [*]

/-- Settles O50: HLT sets Halted, and a failing check sets FatalError by
`step_run_eq_fatalError_iff`. -/
theorem hostStatusOfEndedRun : Obligations.HostStatusOfEndedRun := by
  refine ⟨fun s t h => ?_, fun s t h hf => ?_, fun s => hostStatus_eq_none_iff⟩
  · obtain rfl := Host.Outcome.next.inj h
    exact hostStatus_of_halted rfl
  · exact hostStatus_of_fatalError ((step_run_eq_fatalError_iff h).mpr hf)

end Sys2Proof.Machine

namespace Sys2Proof.Machine

/-! ## What a step does to memory (20_memory.md section 2) -/

/-- The opcode at PC is the first byte of the decoded instruction's encoding. -/
theorem read_pc_of_decode {s : State} {i : Instr} {rest : List Byte}
    (hd : decode (fetchBytes s) = .ok (i, rest)) :
    Memory.read s.mem s.pc.toNat = (encode i)[0]'(encode_length_pos i) :=
  (encode_at_pc_of_decode hd 0 (encode_length_pos i)).2

/-- Settles O53: by `exec_cases` only PUSH and CALL write, and one cell. -/
theorem memoryWrittenOnlyByPushAndCall : Obligations.MemoryWrittenOnlyByPushAndCall := by
  intro s t addr h hne
  obtain ⟨-, ⟨e, -, rfl⟩ | ⟨i, rest, hd, hexec⟩⟩ := step_cases h
  · exact absurd rfl hne
  · rcases exec_cases hexec with ⟨a, -, -, rfl⟩ | ⟨-, -, -, -, hmem | ⟨⟨a, hi⟩, v, hmem⟩⟩
    · exact absurd rfl hne
    · exact absurd (congrArg (Memory.read · addr) hmem) hne
    · refine ⟨?opcode, by_contra fun haddr => hne ?other⟩
      case opcode =>
        rw [read_pc_of_decode hd]
        rcases hi with rfl | rfl
        · exact .inl rfl
        · exact .inr rfl
      case other => rw [hmem, Memory.read_write, if_neg haddr]

end Sys2Proof.Machine

namespace Sys2Proof.Machine

/-! ## Registers an instruction does not name (10_state.md R11, R12) -/

section Unnamed

variable {r : RegId} {v : Byte} {s : State}

/-- Register `r` of `s` is left by `f`, and writing `v` to it beforehand makes no other difference. -/
def Inert (r : RegId) (v : Byte) (s : State) (f : State → StepOutcome) : Prop :=
  ∃ t, f s = .next t ∧ t.reg r = s.reg r ∧ f (s.setReg r v) = .next (t.setReg r v)

/-- An operation is inert in `r` if the next state it answers is a function of the state that keeps `r`
and commutes with writing it. -/
theorem inert_of_next {f : State → StepOutcome} (next : State → State) (hf : ∀ s, f s = .next (next s))
    (hreg : (next s).reg r = s.reg r) (hcomm : next (s.setReg r v) = (next s).setReg r v) :
    Inert r v s f :=
  ⟨next s, hf s, hreg, (hf _).trans (congrArg _ hcomm)⟩

theorem State.setReg_comm (s : State) {q : RegId} (h : r ≠ q) (v w : Byte) :
    (s.setReg r v).setReg q w = (s.setReg q w).setReg r v :=
  congrArg (fun regs => { s with regs := regs }) (s.regs.set_comm h v w)

theorem State.reg_setReg_of_ne (s : State) {q : RegId} (h : r ≠ q) (v : Byte) :
    (s.setReg r v).reg q = s.reg q :=
  (s.reg_setReg r q v).trans (if_neg h.symm)

theorem State.preDecrement_setReg (s : State) (h : r ≠ RegId.sp) (v : Byte) :
    (s.setReg r v).preDecrement = s.preDecrement.setReg r v := by
  rw [State.preDecrement, s.reg_setReg_of_ne h, s.setReg_comm h]
  rfl

theorem State.postIncrement_setReg (s : State) (h : r ≠ RegId.sp) (v : Byte) :
    (s.setReg r v).postIncrement = s.postIncrement.setReg r v := by
  rw [State.postIncrement, s.reg_setReg_of_ne h, s.setReg_comm h]
  rfl

theorem State.pushByte_setReg (s : State) (h : r ≠ RegId.sp) (v w : Byte) :
    (s.setReg r v).pushByte w = (s.pushByte w).setReg r v := by
  rw [State.pushByte, s.preDecrement_setReg h, State.reg_setReg_of_ne _ h]
  rfl

/-- An instruction that writes to another register a value which does not depend on `r`. -/
theorem inert_of_setReg_advance {f : State → StepOutcome} {q : RegId} {n : Nat} (val : State → Byte)
    (hq : r ≠ q) (hf : ∀ s, f s = .next ((s.setReg q (val s)).advance n))
    (hval : val (s.setReg r v) = val s) : Inert r v s f := by
  refine inert_of_next _ hf ((State.reg_setReg ..).trans (if_neg hq)) ?_
  rw [hval, s.setReg_comm hq]
  rfl

theorem exists_reg_ne {i : Instr} {a : Byte} (hwf : i.WellFormed)
    (hr : ∀ a ∈ i.regOperands, a.toNat ≠ r.val) (ha : a ∈ i.regOperands) :
    ∃ ra : RegId, a.toNat = ra.val ∧ r ≠ ra := by
  obtain ⟨ra, hra⟩ := exists_reg hwf ha
  exact ⟨ra, hra, fun h => hr a ha (h ▸ hra)⟩

theorem exists_reg_pair_ne {i : Instr} {a b : Byte} (hwf : i.WellFormed)
    (hr : ∀ a ∈ i.regOperands, a.toNat ≠ r.val) (hi : i.regOperands = [a, b]) :
    ∃ ra rb : RegId, (a.toNat = ra.val ∧ r ≠ ra) ∧ b.toNat = rb.val ∧ r ≠ rb := by
  obtain ⟨ra, ha⟩ := exists_reg_ne (a := a) hwf hr (by simp [hi])
  obtain ⟨rb, hb⟩ := exists_reg_ne (a := b) hwf hr (by simp [hi])
  exact ⟨ra, rb, ha, hb⟩

theorem inert_jumpIf {taken : Bool} {a : Byte} {ra : RegId} (ha : a.toNat = ra.val) (hne : r ≠ ra) :
    Inert r v s (jumpIf taken a) := by
  refine inert_of_next _ (fun _ => jumpIf_ok ha) ?_ ?_
  · cases taken <;> rfl
  · rw [s.reg_setReg_of_ne hne]
    cases taken <;> rfl

/-- Each instruction is inert in every register but SP that it does not name. -/
theorem exec_inert {i : Instr} (hsp : r ≠ RegId.sp) (hr : ∀ a ∈ i.regOperands, a.toNat ≠ r.val) :
    Inert r v s (exec i) := by
  cases hill : i.illegalOperand with
  | some x => exact inert_of_next _ (exec_of_illegalOperand hill) rfl rfl
  | none =>
    have hwf := Instr.illegalOperand_eq_none.mp hill
    cases i with
    | nop | hlt => exact inert_of_next _ (fun _ => rfl) rfl rfl
    | ret =>
      refine inert_of_next _ (fun _ => execRet_eq) ((State.reg_postIncrement ..).trans (if_neg hsp)) ?_
      rw [s.postIncrement_setReg hsp, s.reg_setReg_of_ne hsp]
      rfl
    | call a =>
      obtain ⟨ra, ha, hne⟩ := exists_reg_ne hwf hr List.mem_cons_self
      refine inert_of_next _ (exec_call_of_eq ha) ((State.reg_preDecrement ..).trans (if_neg hsp)) ?_
      rw [s.pushByte_setReg hsp, s.reg_setReg_of_ne hsp, s.reg_setReg_of_ne hne]
      rfl
    | push a =>
      obtain ⟨ra, ha, hne⟩ := exists_reg_ne hwf hr List.mem_cons_self
      refine inert_of_next _ (exec_push_of_eq ha) ((State.reg_preDecrement ..).trans (if_neg hsp)) ?_
      rw [s.pushByte_setReg hsp, s.reg_setReg_of_ne hsp, s.reg_setReg_of_ne hne]
      rfl
    | pop a =>
      obtain ⟨ra, ha, hne⟩ := exists_reg_ne hwf hr List.mem_cons_self
      refine inert_of_next _ (fun _ => execPop_ok ha)
        (keepsRegsBut_setReg_postIncrement s ra _ r (by simp [hne, hsp])) ?_
      rw [s.reg_setReg_of_ne hsp, s.setReg_comm hne, State.postIncrement_setReg _ hsp]
      rfl
    | jmp a | jeq a | jne a =>
      obtain ⟨ra, ha, hne⟩ := exists_reg_ne hwf hr List.mem_cons_self
      exact inert_jumpIf ha hne
    | pra a | prn a =>
      obtain ⟨ra, ha, hne⟩ := exists_reg_ne hwf hr List.mem_cons_self
      refine inert_of_next _ (fun _ => emitReg_ok ha) rfl ?_
      rw [s.reg_setReg_of_ne hne]
      rfl
    | ldi a b | ld a b =>
      obtain ⟨ra, ha, hne⟩ := exists_reg_ne hwf hr List.mem_cons_self
      exact inert_of_setReg_advance (fun _ => b) hne (fun _ => loadByte_ok ha) rfl
    | inc a | dec a | not a b =>
      obtain ⟨ra, ha, hne⟩ := exists_reg_ne hwf hr List.mem_cons_self
      refine inert_of_setReg_advance _ hne (fun _ => aluUnary_ok ha (alu_of_mem (by decide) _ _)) ?_
      rw [s.reg_setReg_of_ne hne]
    | st a b =>
      obtain ⟨ra, rb, ⟨ha, hne⟩, hb, hne'⟩ := exists_reg_pair_ne hwf hr rfl
      exact inert_of_setReg_advance _ hne (fun _ => execSt_ok ha hb) (s.reg_setReg_of_ne hne' v)
    | add a b | sub a b | mul a b | and a b | or a b | xor a b | shl a b | shr a b =>
      obtain ⟨ra, rb, ⟨ha, hne⟩, hb, hne'⟩ := exists_reg_pair_ne hwf hr rfl
      refine inert_of_setReg_advance _ hne
        (fun _ => aluBinary_ok ha hb (alu_of_mem (by decide) _ _)) ?_
      rw [s.reg_setReg_of_ne hne, s.reg_setReg_of_ne hne']
    | cmp a b =>
      obtain ⟨ra, rb, ⟨ha, hne⟩, hb, hne'⟩ := exists_reg_pair_ne hwf hr rfl
      refine inert_of_next _ (fun _ => execCmp_ok ha hb) rfl ?_
      rw [s.reg_setReg_of_ne hne, s.reg_setReg_of_ne hne']
      rfl

end Unnamed

/-- Settles O52, by `exec_inert`. -/
theorem unnamedRegistersAreInert : Obligations.UnnamedRegistersAreInert := by
  intro i s t r v hsp hr h
  obtain ⟨u, hu, hreg, hset⟩ := exec_inert (v := v) (s := s) hsp hr
  obtain rfl := Host.Outcome.next.inj (h.symm.trans hu)
  exact ⟨hreg, hset⟩

end Sys2Proof.Machine
